-- ==== Sys2Proof/Word.lean ====
section
/-! DEFINITION. The widths of the machine's words (spec/00_scope.md rule R5, table T-PARAM).
Only the types stand here; everything computed from them stands where a repair can reach it. -/

namespace Sys2Proof

/-- A general register, a timer or a memory cell: 8 bits (`REG_BITS`, rule R5). -/
abbrev Byte := BitVec 8

/-- An Address: 12 bits, 0x000 to 0xFFF (`ADDR_BITS`, rules R5, R22 and R23). -/
abbrev Addr := BitVec 12

/-- An instruction word: 16 bits (`INSTR_BYTES` = 2, rules R5 and R70). -/
abbrev Opcode := BitVec 16

/-- A key code: 4 bits, 0x0 to 0xF (`KEY_BITS`, rules R5 and R31). -/
abbrev KeyCode := BitVec 4

/-- A register index 0 to 15 (`NREGS`, rules R5 and R20). -/
abbrev RegIdx := Fin 16

end Sys2Proof
end

