-- ==== Sys2Proof/Syntax.lean ====
section
/-! DEFINITION. The instruction set: one constructor per row of table T-OPCODES (spec/30_encoding.md
rule R76), in the table's order, with the operand fields of rule R72. -/

namespace Sys2Proof

/-- The 35 instructions. `x` and `y` are register indices, `kk` a byte, `nnn` an address, `n` the sprite
height. The operand of `sys` and the `y` of the shifts are kept although execution ignores them, because
decoding loses no bit (rules R80 and R90). -/
inductive Instr where
  | cls                                  -- 00E0
  | ret                                  -- 00EE
  | sys (nnn : Addr)                     -- 0nnn
  | jp (nnn : Addr)                      -- 1nnn
  | call (nnn : Addr)                    -- 2nnn
  | seImm (x : RegIdx) (kk : Byte)       -- 3xkk
  | sneImm (x : RegIdx) (kk : Byte)      -- 4xkk
  | seReg (x y : RegIdx)                 -- 5xy0
  | ldImm (x : RegIdx) (kk : Byte)       -- 6xkk
  | addImm (x : RegIdx) (kk : Byte)      -- 7xkk
  | ldReg (x y : RegIdx)                 -- 8xy0
  | orReg (x y : RegIdx)                 -- 8xy1
  | andReg (x y : RegIdx)                -- 8xy2
  | xorReg (x y : RegIdx)                -- 8xy3
  | addReg (x y : RegIdx)                -- 8xy4
  | subReg (x y : RegIdx)                -- 8xy5
  | shr (x y : RegIdx)                   -- 8xy6
  | subnReg (x y : RegIdx)               -- 8xy7
  | shl (x y : RegIdx)                   -- 8xyE
  | sneReg (x y : RegIdx)                -- 9xy0
  | ldI (nnn : Addr)                     -- Annn
  | jpV0 (nnn : Addr)                    -- Bnnn
  | rnd (x : RegIdx) (kk : Byte)         -- Cxkk
  | drw (x y : RegIdx) (n : Fin 16)      -- Dxyn
  | skp (x : RegIdx)                     -- Ex9E
  | sknp (x : RegIdx)                    -- ExA1
  | ldVxDt (x : RegIdx)                  -- Fx07
  | ldVxK (x : RegIdx)                   -- Fx0A
  | ldDtVx (x : RegIdx)                  -- Fx15
  | ldStVx (x : RegIdx)                  -- Fx18
  | addI (x : RegIdx)                    -- Fx1E
  | ldF (x : RegIdx)                     -- Fx29
  | ldB (x : RegIdx)                     -- Fx33
  | stRegs (x : RegIdx)                  -- Fx55
  | ldRegs (x : RegIdx)                  -- Fx65
deriving DecidableEq, Repr

end Sys2Proof
end

