-- ==== Sys2Proof/WellFormed.lean ====
section
/-! DEFINITION. Which instruction values some opcode stands for. Every operand's range is its type's
(spec/30_encoding.md rules R72 and R73), so one check is left: `SYS` has no opcode of its own at 0x0E0
and 0x0EE, which are CLS and RET (rules R74 and R75). -/

namespace Sys2Proof

/-- The two operands of 0nnn that are taken by other instructions (rules R75 and R120). -/
def sysOperandFree (nnn : Addr) : Bool := nnn != 0x0E0 && nnn != 0x0EE

/-- `i` is what some opcode decodes to. -/
def Instr.wellFormed : Instr → Bool
  | .sys nnn => sysOperandFree nnn
  | .cls | .ret => true
  | .jp _ | .call _ | .ldI _ | .jpV0 _ => true
  | .seImm _ _ | .sneImm _ _ | .ldImm _ _ | .addImm _ _ | .rnd _ _ => true
  | .seReg _ _ | .sneReg _ _ => true
  | .ldReg _ _ | .orReg _ _ | .andReg _ _ | .xorReg _ _ | .addReg _ _ | .subReg _ _ => true
  | .shr _ _ | .subnReg _ _ | .shl _ _ => true
  | .drw _ _ _ => true
  | .skp _ | .sknp _ | .ldVxDt _ | .ldVxK _ | .ldDtVx _ | .ldStVx _ => true
  | .addI _ | .ldF _ | .ldB _ | .stRegs _ | .ldRegs _ => true

end Sys2Proof
end

