-- ==== Sys2Proof/Decode.lean ====
section
/-! DEFINITION. The decoder, total on every opcode and every list of bytes (spec/30_encoding.md rules R70
to R79), and after it the encoder, written from the same table T-OPCODES (rule R76). -/

namespace Sys2Proof

/-- Why the decoder gives no instruction. -/
inductive DecodeReject where
  /-- The opcode is one of table T-ILLEGAL (rule R79); it is carried raw (rule R74). -/
  | illegalOpcode (op : Opcode)
  /-- Fewer than two bytes are left, and every instruction has two (rule R70). -/
  | truncated
deriving DecidableEq, Repr

/-! The fields of an opcode (rules R11, R71 and R72). -/

/-- The family selector `n3 = op[15:12]`. -/
def familyOf (op : Opcode) : Nat := (op.extractLsb' 12 4).toNat

/-- `x = op[11:8]`. -/
def fieldX (op : Opcode) : RegIdx := ⟨(op.extractLsb' 8 4).toNat, (op.extractLsb' 8 4).isLt⟩

/-- `y = op[7:4]`. -/
def fieldY (op : Opcode) : RegIdx := ⟨(op.extractLsb' 4 4).toNat, (op.extractLsb' 4 4).isLt⟩

/-- `n = op[3:0]`. -/
def fieldN (op : Opcode) : Fin 16 := ⟨(op.extractLsb' 0 4).toNat, (op.extractLsb' 0 4).isLt⟩

/-- `kk = op[7:0]`. -/
def fieldKK (op : Opcode) : Byte := op.extractLsb' 0 8

/-- `nnn = op[11:0]`. -/
def fieldNNN (op : Opcode) : Addr := op.extractLsb' 0 12

/-- The two bytes of an instruction joined big-endian: the byte at the lower address is the more
significant (rules R14 and R50). -/
def joinBytes (hi lo : Byte) : Opcode := BitVec.ofNat 16 (hi.toNat * 256 + lo.toNat)

/-- The more significant byte of an opcode, `op[15:8]`, which lies at the lower address (rule R50). -/
def highByte (op : Opcode) : Byte := op.extractLsb' 8 8

/-- The less significant byte, `op[7:0]`. -/
def lowByte (op : Opcode) : Byte := op.extractLsb' 0 8

/-- Families 0x8: the nine sub-operations selected by `op[3:0]` (rules R74 and R76). -/
def decodeAlu (op : Opcode) : Except DecodeReject Instr :=
  let x := fieldX op
  let y := fieldY op
  match (fieldN op).val with
  | 0x0 => .ok (.ldReg x y)
  | 0x1 => .ok (.orReg x y)
  | 0x2 => .ok (.andReg x y)
  | 0x3 => .ok (.xorReg x y)
  | 0x4 => .ok (.addReg x y)
  | 0x5 => .ok (.subReg x y)
  | 0x6 => .ok (.shr x y)
  | 0x7 => .ok (.subnReg x y)
  | 0xE => .ok (.shl x y)
  | _ => .error (.illegalOpcode op)

/-- Family 0xE: the two key skips, selected by `op[7:0]`. -/
def decodeKey (op : Opcode) : Except DecodeReject Instr :=
  match (fieldKK op).toNat with
  | 0x9E => .ok (.skp (fieldX op))
  | 0xA1 => .ok (.sknp (fieldX op))
  | _ => .error (.illegalOpcode op)

/-- Family 0xF: the nine instructions selected by `op[7:0]`. -/
def decodeMisc (op : Opcode) : Except DecodeReject Instr :=
  let x := fieldX op
  match (fieldKK op).toNat with
  | 0x07 => .ok (.ldVxDt x)
  | 0x0A => .ok (.ldVxK x)
  | 0x15 => .ok (.ldDtVx x)
  | 0x18 => .ok (.ldStVx x)
  | 0x1E => .ok (.addI x)
  | 0x29 => .ok (.ldF x)
  | 0x33 => .ok (.ldB x)
  | 0x55 => .ok (.stRegs x)
  | 0x65 => .ok (.ldRegs x)
  | _ => .error (.illegalOpcode op)

/-- The choice by the family nibble (rules R71, R74 and R75). -/
def decodeFamily (op : Opcode) : Except DecodeReject Instr :=
  match familyOf op with
  | 0x0 => .ok (.sys (fieldNNN op))
  | 0x1 => .ok (.jp (fieldNNN op))
  | 0x2 => .ok (.call (fieldNNN op))
  | 0x3 => .ok (.seImm (fieldX op) (fieldKK op))
  | 0x4 => .ok (.sneImm (fieldX op) (fieldKK op))
  | 0x5 => if (fieldN op).val = 0 then .ok (.seReg (fieldX op) (fieldY op)) else .error (.illegalOpcode op)
  | 0x6 => .ok (.ldImm (fieldX op) (fieldKK op))
  | 0x7 => .ok (.addImm (fieldX op) (fieldKK op))
  | 0x8 => decodeAlu op
  | 0x9 => if (fieldN op).val = 0 then .ok (.sneReg (fieldX op) (fieldY op)) else .error (.illegalOpcode op)
  | 0xA => .ok (.ldI (fieldNNN op))
  | 0xB => .ok (.jpV0 (fieldNNN op))
  | 0xC => .ok (.rnd (fieldX op) (fieldKK op))
  | 0xD => .ok (.drw (fieldX op) (fieldY op) (fieldN op))
  | 0xE => decodeKey op
  | 0xF => decodeMisc op
  | _ => .error (.illegalOpcode op)

/-- `decode` (rule R74): the two fixed opcodes first, then the family. It reads no state. -/
def decode (op : Opcode) : Except DecodeReject Instr :=
  if op = 0x00E0 then .ok .cls else if op = 0x00EE then .ok .ret else decodeFamily op

/-- The decoder on bytes in memory order: two bytes make the opcode (rules R50 and R70), the rest is
given back. -/
def decodeBytes : List Byte → Except DecodeReject (Instr × List Byte)
  | hi :: lo :: rest =>
    match decode (joinBytes hi lo) with
    | .ok i => .ok (i, rest)
    | .error e => .error e
  | _ => .error .truncated

/-! The encoder: `op = n3 ‖ n2 ‖ n1 ‖ n0` as a number (rules R71 and R76). -/

/-- Format NNN: family and address. -/
def packNNN (family : Nat) (nnn : Addr) : Opcode := BitVec.ofNat 16 (family * 4096 + nnn.toNat)

/-- Formats XKK and X: family, register and byte. -/
def packXKK (family : Nat) (x : RegIdx) (kk : Byte) : Opcode :=
  BitVec.ofNat 16 (family * 4096 + x.val * 256 + kk.toNat)

/-- Formats XY and XYN: family, two registers and the low nibble. -/
def packXYN (family : Nat) (x y : RegIdx) (n : Fin 16) : Opcode :=
  BitVec.ofNat 16 (family * 4096 + x.val * 256 + y.val * 16 + n.val)

/-- The opcode of an instruction, from the rows of table T-OPCODES (rule R76). For a `SYS` that is not
well formed the word is that of CLS or RET. -/
def encode : Instr → Opcode
  | .cls => 0x00E0
  | .ret => 0x00EE
  | .sys nnn => packNNN 0x0 nnn
  | .jp nnn => packNNN 0x1 nnn
  | .call nnn => packNNN 0x2 nnn
  | .seImm x kk => packXKK 0x3 x kk
  | .sneImm x kk => packXKK 0x4 x kk
  | .seReg x y => packXYN 0x5 x y 0x0
  | .ldImm x kk => packXKK 0x6 x kk
  | .addImm x kk => packXKK 0x7 x kk
  | .ldReg x y => packXYN 0x8 x y 0x0
  | .orReg x y => packXYN 0x8 x y 0x1
  | .andReg x y => packXYN 0x8 x y 0x2
  | .xorReg x y => packXYN 0x8 x y 0x3
  | .addReg x y => packXYN 0x8 x y 0x4
  | .subReg x y => packXYN 0x8 x y 0x5
  | .shr x y => packXYN 0x8 x y 0x6
  | .subnReg x y => packXYN 0x8 x y 0x7
  | .shl x y => packXYN 0x8 x y 0xE
  | .sneReg x y => packXYN 0x9 x y 0x0
  | .ldI nnn => packNNN 0xA nnn
  | .jpV0 nnn => packNNN 0xB nnn
  | .rnd x kk => packXKK 0xC x kk
  | .drw x y n => packXYN 0xD x y n
  | .skp x => packXKK 0xE x 0x9E
  | .sknp x => packXKK 0xE x 0xA1
  | .ldVxDt x => packXKK 0xF x 0x07
  | .ldVxK x => packXKK 0xF x 0x0A
  | .ldDtVx x => packXKK 0xF x 0x15
  | .ldStVx x => packXKK 0xF x 0x18
  | .addI x => packXKK 0xF x 0x1E
  | .ldF x => packXKK 0xF x 0x29
  | .ldB x => packXKK 0xF x 0x33
  | .stRegs x => packXKK 0xF x 0x55
  | .ldRegs x => packXKK 0xF x 0x65

/-- The opcode's bytes in memory order, most significant first (rule R50). -/
def encodeBytes (i : Instr) : List Byte := [highByte (encode i), lowByte (encode i)]

/-- The instruction of the table word `w` of `nbits` bits: bits above `nbits` are zero, the word is laid
out as memory holds it and the byte decoder reads it. -/
def decodeTableWord (nbits w : Nat) : Option Instr :=
  let op : Opcode := BitVec.ofNat 16 (w % 2 ^ nbits)
  match decodeBytes [highByte op, lowByte op] with
  | .ok (i, _) => some i
  | .error _ => none

end Sys2Proof
end

