-- ==== Sys2Proof/Config.lean ====
section
/-! DEFINITION. What is fixed for the machine and is no state: the parameters of tables T-PARAM and
T-OPEN (spec/00_scope.md rules R5, R6 and R7) and the free random byte (rule R151). -/

namespace Sys2Proof

/-- `KEY_CLEAR_POLICY` (rule R6 and 92_eei_decisions.md D6): what the machine does to the key latch by
itself. The three values and their meanings are D6's. -/
inductive KeyClearPolicy where
  | persist
  | consumeOnRead
  | clearEveryStep
deriving DecidableEq, Repr

/-- `FX29_HIGH` (rule R7 and 92_eei_decisions.md D7): what Fx29 does when Vx is above 0x0F. -/
inductive Fx29High where
  | unspecified
  | mask
  | wide
deriving DecidableEq, Repr

/-- The hardware's value is `persist`: no instruction writes the key latch (rules R6 and R216). -/
def Config.keyClearPolicy : KeyClearPolicy := .persist

/-- The value table T-OPEN gives (rule R7): the step has the outcome `Unspecified`. -/
def Config.fx29High : Fx29High := .unspecified

/-- `MEM_INIT_FILL`: what the cells hold at reset that neither font nor program covers
(rules R7 and R27, decision D8). -/
def Config.memInitFill : Byte := 0x00

/-- The capacity of the call stack, `STACK_SLOTS` (rule R5). -/
def Config.stackSlots : Nat := 16

/-- Load address of the program and reset value of the program counter, `PROG_BASE` (rule R5). -/
def Config.progBase : Addr := 0x200

/-- The longest program that fits, `PROG_MAX` (rule R5). -/
def Config.progMax : Nat := 3584

/-- `FONT_GLYPH_BYTES` (rule R5). -/
def Config.glyphBytes : Nat := 5

/-- The 80 bytes of a font (rule R28): 16 glyphs of 5 bytes, in digit order. -/
abbrev Font := Vector Byte 80

/-- The bytes of table T-FONT, glyph by glyph (10_state.md rule R28).
PRESUMED (assumption 3): the spec itself marks these values as general knowledge, so no statement may
lean on a glyph's shape without naming that entry. -/
def Config.fontBytes : List Byte :=
  [0xF0, 0x90, 0x90, 0x90, 0xF0] ++ [0x20, 0x60, 0x20, 0x20, 0x70] ++
  [0xF0, 0x10, 0xF0, 0x80, 0xF0] ++ [0xF0, 0x10, 0xF0, 0x10, 0xF0] ++
  [0x90, 0x90, 0xF0, 0x10, 0x10] ++ [0xF0, 0x80, 0xF0, 0x10, 0xF0] ++
  [0xF0, 0x80, 0xF0, 0x90, 0xF0] ++ [0xF0, 0x10, 0x20, 0x40, 0x40] ++
  [0xF0, 0x90, 0xF0, 0x90, 0xF0] ++ [0xF0, 0x90, 0xF0, 0x10, 0xF0] ++
  [0xF0, 0x90, 0xF0, 0x90, 0x90] ++ [0xE0, 0x90, 0xE0, 0x90, 0xE0] ++
  [0xF0, 0x80, 0x80, 0x80, 0xF0] ++ [0xE0, 0x90, 0x90, 0x90, 0xE0] ++
  [0xF0, 0x80, 0xF0, 0x80, 0xF0] ++ [0xF0, 0x80, 0xF0, 0x80, 0x80]

/-- The parameter `FONT` at its default (rules R7 and R28, decision D16). `construct` takes a font as
an argument; this is the one `State.reset` is built with. -/
def Config.font : Font := ⟨Config.fontBytes.toArray, rfl⟩

/-- What a byte of memory that nothing has written reads as: the reset contents, that is the font below
0x050 and `MEM_INIT_FILL` elsewhere (rules R27, R28 and R54). -/
def Config.unlisted (a : Nat) : Byte := Config.fontBytes.getD a Config.memInitFill

/-- `RANDOM_SOURCE`: the byte the k-th Cxkk since reset draws. A FREE VALUE (rules R10 and R151, decision
D17): it has no body, so nothing proves what it is and every statement holds for all of its values. -/
opaque Config.randomByte : Nat → Byte

end Sys2Proof
end

