-- ==== Sys2Proof/Machine/State.lean ====
section
/-! DEFINITION. The state of the machine as plain data (spec/10_state.md rules R20 to R36), its reset value
(rule R34), and the reasons a step can end otherwise than in a next state (spec/60_exceptions.md rule R250,
spec/00_scope.md rule R9). -/

namespace Sys2Proof.Machine

/-- Memory: the cells that differ from what `Config.unlisted` says, addresses strictly rising (rule R27).
Everything that reads or writes it stands in Machine/Ops.lean. -/
abbrev Memory := List Host.Cell

/-- A plane of 32 rows of 64 bits (rule R29). Column x of a row is bit x of its word.
DESIGN CHOICE (assumption 6): the spec leaves the packing open, and nothing can observe it. -/
abbrev Plane := Vector (BitVec 64) 32

/-- What the framebuffer primitives act on: the pixels and the dirty set (rules R29, R30, R190, R191). -/
structure Display where
  fb : Plane
  dirty : Plane
deriving DecidableEq, Repr

/-- The machine's state: the ten items of rules R20 to R31, and the model's own counter of random draws. -/
structure State where
  /-- General registers V0 to VF; V[15] is the flag register VF (rules R20 and R21). -/
  v : Vector Byte 16
  /-- Program counter (rule R22). -/
  pc : Addr
  /-- Index register I (rule R23). -/
  i : Addr
  /-- Stack pointer, the number of saved addresses, 0 to 16 (rule R24). -/
  sp : Fin 17
  /-- Call stack STACK[0..15] (rule R24). -/
  stack : Vector Addr 16
  /-- Delay timer (rule R25). -/
  dt : Byte
  /-- Sound timer (rule R26). -/
  st : Byte
  /-- Memory (rule R27). -/
  mem : Memory
  /-- Framebuffer FB (rule R29). -/
  fb : Plane
  /-- Dirty set DIRTY: the coordinates whose bit is set (rule R30). -/
  dirty : Plane
  /-- Key latch KEY, `none` or a key code (rule R31). -/
  key : Option KeyCode
  /-- The MODEL'S OWN field, no state of the spec: how many random bytes Cxkk has drawn. It only picks
  which free value the next draw takes (assumption 1). -/
  draws : Nat
deriving DecidableEq, Repr

/-- The four fatal error kinds (rule R250, table T-FAULT). Each ends the step and leaves no successor
state (rule R256). -/
inductive Fault where
  /-- Raised in the decode phase by an opcode of table T-ILLEGAL; carries the raw opcode and the address
  it was fetched from (rule R251). Safe: the spec halts the machine here. -/
  | decodeError (op : Opcode) (a : Addr)
  /-- Raised by 2nnn when SP = 16 (rule R252). Safe: the spec halts the machine here. -/
  | stackOverflow
  /-- Raised by 00EE when SP = 0 (rule R253). Safe: the spec halts the machine here. -/
  | stackUnderflow
  /-- Raised by `addrAdd` and nowhere else, at the sites of table T-RANGE; carries the number that left
  the address range (rules R13 and R254). Safe: the spec halts the machine here. -/
  | addressRange (value : Nat)
deriving DecidableEq, Repr

/-- Where the model gives no outcome. -/
inductive Refusal where
  /-- An instruction whose meaning is not written yet; raised by an arm of `exec` only. Safe. -/
  | notModelled (mnemonic : String)
  /-- The spec's outcome `Unspecified("Fx29 with Vx > 0x0F")`, raised by Fx29 alone (rules R9 and R172).
  Safe: nothing can be proved through it. -/
  | unspecifiedGlyph (digit : Byte)
  /-- `construct` with a program of more than 3584 bytes, which yields no machine (rule R231). No step
  raises it. Safe. -/
  | programTooLong (length : Nat)
deriving DecidableEq, Repr

/-- The outcome of one step (rule R9). -/
abbrev Result := Host.Outcome State Fault Refusal

/-- A plane with no bit set. -/
def Plane.blank : Plane := Vector.replicate 32 0

/-- The state right after reset with no program (rules R34 and R280, table T-RESET).
DESIGN CHOICE (assumption 4): the stack slots, which the spec leaves unspecified, are 0x000. -/
def State.reset : State where
  v := Vector.replicate 16 0x00
  pc := Config.progBase
  i := 0x000
  sp := 0
  stack := Vector.replicate 16 0x000
  dt := 0x00
  st := 0x00
  mem := []
  fb := Plane.blank
  dirty := Plane.blank
  key := none
  draws := 0

end Sys2Proof.Machine
end

