-- ==== Sys2Proof/Machine/Ops.lean ====
section
/-! DEFINITION. The named operations over the state: taking a fault, address arithmetic, memory, registers,
the call stack, the key latch, the random draw and the framebuffer primitives. Every meaning is written
over these. -/

namespace Sys2Proof.Machine

/-! ## Outcomes and faults -/

/-- Taking a fault: the step ends with it, nothing is saved and control goes nowhere inside the machine,
so there is nothing to return from (rules R15, R256 and R257). -/
def raise (f : Fault) : Result := .fault f

/-- Goes on with a value that was computed, or takes the fault its computation raised. -/
def orRaise {α : Type} (r : Except Fault α) (next : α → Result) : Result :=
  match r with
  | .ok a => next a
  | .error f => raise f

/-- The number of a fault kind (table T-FAULT, decision D13). -/
def Fault.code : Fault → Nat
  | .decodeError _ _ => 1
  | .stackOverflow => 2
  | .stackUnderflow => 3
  | .addressRange _ => 4

/-- `AddrAdd(a, k)`: the exact sum, or AddressRangeError with it; it never wraps (rules R13 and R56). -/
def addrAdd (a : Addr) (k : Nat) : Except Fault Addr :=
  if a.toNat + k ≤ 0xFFF then .ok (BitVec.ofNat 12 (a.toNat + k)) else .error (.addressRange (a.toNat + k))

/-! ## Memory -/

/-- The byte at key `a`: its first entry, else what an unlisted address reads as. -/
def Memory.lookup : Memory → Nat → Byte
  | [], a => Config.unlisted a
  | c :: m, a => if c.1 = a then c.2 else Memory.lookup m a

/-- Puts a cell before the first one with a higher address. -/
def Memory.insertCell (c : Host.Cell) : Memory → Memory
  | [] => [c]
  | d :: m => if c.1 < d.1 then c :: d :: m else d :: Memory.insertCell c m

/-- The memory with no entry at key `a`. -/
def Memory.drop (m : Memory) (a : Nat) : Memory := m.filter fun c => c.1 != a

/-- `MemRead(a, 1)` (rule R14). -/
def Memory.read (m : Memory) (a : Addr) : Byte := Memory.lookup m a.toNat

/-- `MemWrite(a, 1, b)` (rule R14). A byte equal to what the unlisted address reads as leaves no entry. -/
def Memory.write (m : Memory) (a : Addr) (b : Byte) : Memory :=
  let rest := Memory.drop m a.toNat
  if b = Config.unlisted a.toNat then rest else Memory.insertCell (a.toNat, b) rest

/-- Single-byte writes at ascending addresses from `a`, in the order of the list (rules R51 and R53). The
caller has checked with `addrAdd` that the extent is in range. -/
def Memory.writeBlock (m : Memory) (a : Addr) : List Byte → Memory
  | [] => m
  | b :: bs => Memory.writeBlock (Memory.write m a b) (a + 1) bs

/-- The canonical form: addresses strictly rising, all in the address space, no entry equal to what an
unlisted address reads as. -/
abbrev Memory.wf (m : Memory) : Prop :=
  m.Pairwise (fun c d => c.1 < d.1) ∧ ∀ c ∈ m, c.1 < 4096 ∧ c.2 ≠ Config.unlisted c.1

/-! ## Registers -/

/-- Reads V[r] (rule R20). -/
def State.reg (s : State) (r : RegIdx) : Byte := s.v[r.val]

/-- `V[r] <- b` (rule R20). -/
def State.setReg (s : State) (r : RegIdx) (b : Byte) : State := { s with v := s.v.set r.val b }

/-- Gives every register the value of a function of its index. -/
def State.setRegs (s : State) (f : RegIdx → Byte) : State := { s with v := Vector.ofFn f }

/-- The index of the flag register VF, `FLAG_REG` (rules R5 and R21). -/
def flagReg : RegIdx := 15

/-- Writes the flag first and the destination second, so that the result wins where the destination is VF
(rule R104 (b), decision D3). -/
def State.setFlagThenReg (s : State) (flag : Byte) (r : RegIdx) (result : Byte) : State :=
  (s.setReg flagReg flag).setReg r result

/-- `pc <- a` (rule R22). -/
def State.setPc (s : State) (a : Addr) : State := { s with pc := a }

/-- `I <- a` (rule R23). -/
def State.setI (s : State) (a : Addr) : State := { s with i := a }

/-- `DT <- b` (rule R25). -/
def State.setDt (s : State) (b : Byte) : State := { s with dt := b }

/-- `ST <- b` (rule R26). -/
def State.setSt (s : State) (b : Byte) : State := { s with st := b }

/-- Replaces the memory. -/
def State.setMem (s : State) (m : Memory) : State := { s with mem := m }

/-- Replaces the key latch (rule R31). -/
def State.setKeyLatch (s : State) (k : Option KeyCode) : State := { s with key := k }

/-! ## Control -/

/-- `Skip()`: a further bounded add of 2 to the advanced pc (rule R105). -/
def State.skip (s : State) : Result := orRaise (addrAdd s.pc 2) fun a => .next (s.setPc a)

/-- Skips if the condition holds, and otherwise leaves the state as it is. -/
def State.skipIf (s : State) (c : Bool) : Result := if c then s.skip else .next s

/-- Pushes a return address: stores at the old SP, then increments; StackOverflow at SP = 16
(rules R24, R123 and R252). -/
def State.push (s : State) (a : Addr) : Except Fault State :=
  if h : s.sp.val < 16 then
    .ok { s with stack := s.stack.set s.sp.val a h, sp := ⟨s.sp.val + 1, by omega⟩ }
  else .error .stackOverflow

/-- Pops a return address: decrements SP, then loads the slot; StackUnderflow at SP = 0
(rules R24, R121 and R253). -/
def State.pop (s : State) : Except Fault (Addr × State) :=
  if h : s.sp.val = 0 then .error .stackUnderflow
  else .ok (s.stack[s.sp.val - 1]'(by omega), { s with sp := ⟨s.sp.val - 1, by omega⟩ })

/-! ## The key latch and the random byte -/

/-- `KEY == some(k) and zext_8(k) == b`: the whole byte is compared (rule R210, decision D29). -/
def State.keyIs (s : State) (b : Byte) : Bool :=
  match s.key with
  | none => false
  | some k => k.setWidth 8 == b

/-- What an instruction that has looked at the latch leaves in it: under `persist` the latch as it was
(rule R216); the other policy is D6's. -/
def State.afterKeyRead (s : State) : State :=
  match Config.keyClearPolicy with
  | .consumeOnRead => s.setKeyLatch none
  | .persist | .clearEveryStep => s

/-- What the end of a step leaves in the latch: under `persist` the latch as it was (rules R106 and R216);
the other policy is D6's. -/
def State.endOfStep (s : State) : State :=
  match Config.keyClearPolicy with
  | .clearEveryStep => s.setKeyLatch none
  | .persist | .consumeOnRead => s

/-- `draw8()`: a fresh free byte (rules R10 and R151). -/
def State.draw (s : State) : Byte × State := (Config.randomByte s.draws, { s with draws := s.draws + 1 })

/-! ## The framebuffer primitives -/

/-- Column of a natural number, modulo `FB_WIDTH` (rule R190). -/
def wrapX (x : Nat) : Fin 64 := ⟨x % 64, Nat.mod_lt _ (by decide)⟩

/-- Row of a natural number, modulo `FB_HEIGHT` (rule R190). -/
def wrapY (y : Nat) : Fin 32 := ⟨y % 32, Nat.mod_lt _ (by decide)⟩

/-- The bit of a plane at column x, row y. -/
def Plane.get (p : Plane) (x : Fin 64) (y : Fin 32) : Bool := p[y.val].getLsbD x.val

/-- Flips one bit. -/
def Plane.flip (p : Plane) (x : Fin 64) (y : Fin 32) : Plane :=
  p.set y.val (p[y.val] ^^^ BitVec.twoPow 64 x.val)

/-- Sets one bit. -/
def Plane.mark (p : Plane) (x : Fin 64) (y : Fin 32) : Plane :=
  p.set y.val (p[y.val] ||| BitVec.twoPow 64 x.val)

/-- The bits set in either plane. -/
def Plane.union (p q : Plane) : Plane := Vector.ofFn fun y => p[y.val] ||| q[y.val]

/-- `Toggle(x, y)`: flips the wrapped pixel, records it as dirty and tells whether it was set (rule R190). -/
def Display.toggle (d : Display) (x y : Nat) : Display × Bool :=
  let cx := wrapX x
  let cy := wrapY y
  ({ fb := Plane.flip d.fb cx cy, dirty := Plane.mark d.dirty cx cy }, Plane.get d.fb cx cy)

/-- `ClearScreen()`: every set pixel becomes dirty and clear (rule R191). -/
def Display.clear (d : Display) : Display := { fb := Plane.blank, dirty := Plane.union d.dirty d.fb }

/-- One column of a sprite row: a 1 bit toggles and reports a hit, a 0 bit does nothing
(rule R193 (a) and (b)). -/
def Display.drawBit (b : Byte) (x y : Nat) (acc : Display × Bool) (col : Nat) : Display × Bool :=
  if b.getLsbD (7 - col) then
    let t := acc.1.toggle (x + col) y
    (t.1, acc.2 || t.2)
  else acc

/-- One sprite row: columns 0 to 7, the most significant bit first (rule R193). -/
def Display.drawByte (b : Byte) (x y : Nat) (acc : Display × Bool) : Display × Bool :=
  (List.range 8).foldl (Display.drawBit b x y) acc

/-- `left` sprite rows from row number `row` on: each byte is read at `base + row` when its row is reached,
and the first one out of range is an AddressRangeError (rule R193). -/
def drawRows (m : Memory) (base : Addr) (x y : Nat) :
    (left row : Nat) → Display × Bool → Except Fault (Display × Bool)
  | 0, _, acc => .ok acc
  | left + 1, row, acc =>
    match addrAdd base row with
    | .error f => .error f
    | .ok a => drawRows m base x y left (row + 1) (Display.drawByte (m.read a) x (y + row) acc)

/-- The framebuffer and the dirty set of a state. -/
def State.display (s : State) : Display := { fb := s.fb, dirty := s.dirty }

/-- Replaces the framebuffer and the dirty set. -/
def State.setDisplay (s : State) (d : Display) : State := { s with fb := d.fb, dirty := d.dirty }

end Sys2Proof.Machine
end

