-- ==== Sys2Proof/Machine/Cycle.lean ====
section
/-! DEFINITION. The phases of a step around the execute phase (spec/40_step_cycle.md rules R100 to R103),
and storing an instruction where the next step fetches it. -/

namespace Sys2Proof.Machine

/-- Fetch: the bytes at pc and pc + 1, big-endian; AddressRangeError at pc = 0xFFF (rule R101). -/
def State.fetch (s : State) : Except Fault Opcode :=
  match addrAdd s.pc 1 with
  | .error f => .error f
  | .ok a => .ok (joinBytes (s.mem.read s.pc) (s.mem.read a))

/-- Decode: DecodeError with the opcode and its address (rules R102 and R251). -/
def State.decodeAt (s : State) (op : Opcode) : Except Fault Instr :=
  match decode op with
  | .ok i => .ok i
  | .error _ => .error (.decodeError op s.pc)

/-- Advance: the bounded add of 2 to the pc (rule R103). -/
def State.advance (s : State) : Except Fault State :=
  match addrAdd s.pc 2 with
  | .error f => .error f
  | .ok a => .ok (s.setPc a)

/-- Fetch, decode and advance in this order; the first that raises decides the fault (rules R100 and
R107). -/
def State.prepare (s : State) : Except Fault (Instr × State) :=
  match s.fetch with
  | .error f => .error f
  | .ok op =>
    match s.decodeAt op with
    | .error f => .error f
    | .ok i =>
      match s.advance with
      | .error f => .error f
      | .ok t => .ok (i, t)

/-- What a step adds after the execute phase: the key policy at its end (rule R216). -/
def finishStep : Result → Result
  | .next s => .next s.endOfStep
  | .fault f => .fault f
  | .refused r => .refused r

/-- The memory with an opcode's two bytes at the state's pc, most significant first (rule R50); a second
byte that would lie outside the address space is not stored. -/
def State.placeOpcode (s : State) (op : Opcode) : State :=
  let m := s.mem.write s.pc (highByte op)
  match addrAdd s.pc 1 with
  | .error _ => s.setMem m
  | .ok a => s.setMem (m.write a (lowByte op))

end Sys2Proof.Machine
end

