-- ==== Sys2Proof/Machine/Operands.lean ====
section
/-! DEFINITION. The operand forms that are more than a register, a byte or an address: the index-relative
blocks of rule R176, the decimal digits of Fx33 and the glyph address of Fx29. -/

namespace Sys2Proof.Machine

/-- The hundreds, tens and ones digits of a byte, in the order they are stored (rule R173). -/
def bcdDigits (b : Byte) : List Byte :=
  [BitVec.ofNat 8 (b.toNat / 100), BitVec.ofNat 8 (b.toNat / 10 % 10), BitVec.ofNat 8 (b.toNat % 10)]

/-- The registers V0 to Vx in ascending order, x included (rule R174). -/
def State.regBlock (s : State) (x : RegIdx) : List Byte := s.v.toList.take (x.val + 1)

/-- The registers after loading V0 to Vx from memory at I: V[j] for j up to x comes from `I + j`, the
others keep their value (rule R175). -/
def State.loadBlock (s : State) (x : RegIdx) : State :=
  s.setRegs fun j => if j.val ≤ x.val then s.mem.read (s.i + BitVec.ofNat 12 j.val) else s.reg j

/-- The address of a digit's glyph, `FONT_BASE + FONT_GLYPH_BYTES * d` (rules R28 and R172). A value above
15 has no glyph: under the hardware's `FX29_HIGH` the outcome is `Unspecified`, and the two other values
of that parameter are D7's. -/
def glyphAddress (b : Byte) : Except Refusal Addr :=
  if b.toNat ≤ 15 then .ok (BitVec.ofNat 12 (Config.glyphBytes * b.toNat))
  else
    match Config.fx29High with
    | .unspecified => .error (.unspecifiedGlyph b)
    | .mask => .ok (BitVec.ofNat 12 (Config.glyphBytes * (b.toNat % 16)))
    | .wide => .ok (BitVec.ofNat 12 (Config.glyphBytes * b.toNat))

end Sys2Proof.Machine
end

