-- ==== Sys2Proof/Machine/ControlFlow.lean ====
section
/-! DEFINITION. Control transfer (spec/41_control_flow.md). Each meaning is the execute phase of rule R104:
`pc` already holds the address after the instruction. -/

namespace Sys2Proof.Machine

/-- `SYS nnn`: ignored; the operand is never used (rule R120). -/
def execSys (_nnn : Addr) (s : State) : Result := .next s

/-- `RET`: pops into the pc (rule R121). -/
def execRet (s : State) : Result := orRaise s.pop fun r => .next (r.2.setPc r.1)

/-- `JP nnn` (rule R122). -/
def execJp (nnn : Addr) (s : State) : Result := .next (s.setPc nnn)

/-- `CALL nnn`: pushes the advanced pc, the address after the call (rule R123). -/
def execCall (nnn : Addr) (s : State) : Result := orRaise (s.push s.pc) fun t => .next (t.setPc nnn)

/-- `SE Vx, kk` (rule R124). -/
def execSeImm (x : RegIdx) (kk : Byte) (s : State) : Result := s.skipIf (s.reg x == kk)

/-- `SNE Vx, kk` (rule R125). -/
def execSneImm (x : RegIdx) (kk : Byte) (s : State) : Result := s.skipIf (s.reg x != kk)

/-- `SE Vx, Vy` (rule R126). -/
def execSeReg (x y : RegIdx) (s : State) : Result := s.skipIf (s.reg x == s.reg y)

/-- `SNE Vx, Vy` (rule R127). -/
def execSneReg (x y : RegIdx) (s : State) : Result := s.skipIf (s.reg x != s.reg y)

/-- `JP V0, nnn`: the bounded sum of nnn and V0 (rule R128). -/
def execJpV0 (nnn : Addr) (s : State) : Result :=
  orRaise (addrAdd nnn (s.reg 0).toNat) fun a => .next (s.setPc a)

end Sys2Proof.Machine
end

