-- ==== Sys2Proof/Machine/Flags.lean ====
section
/-! DEFINITION. The values written to the flag register VF as a side effect, always 0 or 1
(spec/10_state.md rule R21). -/

namespace Sys2Proof.Machine

/-- The flag value of a condition. -/
def flagByte (c : Bool) : Byte := if c then 1 else 0

/-- Carry of 8xy4: the exact sum exceeds 255 (rule R146). -/
def carryFlag (a b : Byte) : Byte := flagByte (decide (255 < a.toNat + b.toNat))

/-- The flag of 8xy5 and 8xy7: the minuend is strictly greater (rules R147 and R149, 90_conflicts.md C8). -/
def greaterFlag (a b : Byte) : Byte := flagByte (decide (b.toNat < a.toNat))

/-- The bit shifted out to the right (rule R148). -/
def lowBitFlag (a : Byte) : Byte := flagByte (a.getLsbD 0)

/-- The bit shifted out to the left (rule R150). -/
def highBitFlag (a : Byte) : Byte := flagByte (a.getLsbD 7)

/-- The flag of Dxyn: some toggled pixel was set beforehand (rule R193). -/
def collisionFlag (hit : Bool) : Byte := flagByte hit

end Sys2Proof.Machine
end

