-- ==== Sys2Proof/Machine/DisplayInstr.lean ====
section
/-! DEFINITION. The display instructions (spec/44_display.md). -/

namespace Sys2Proof.Machine

/-- `CLS` (rule R192). -/
def execCls (s : State) : Result := .next (s.setDisplay s.display.clear)

/-- `DRW Vx, Vy, n`: the coordinates and I are read before VF is written; VF ends as the collision flag
(rules R104 (c) and R193). -/
def execDrw (x y : RegIdx) (n : Fin 16) (s : State) : Result :=
  orRaise (drawRows s.mem s.i (s.reg x).toNat (s.reg y).toNat n.val 0 (s.display, false)) fun r =>
    .next ((s.setDisplay r.1).setReg flagReg (collisionFlag r.2))

end Sys2Proof.Machine
end

