-- ==== Sys2Proof/Machine/IndexMemory.lean ====
section
/-! DEFINITION. The index register and the memory instructions (spec/43_index_memory.md). Each checks its
whole extent before it accesses anything (decision D15). -/

namespace Sys2Proof.Machine

/-- `LD I, nnn` (rule R170). -/
def execLdI (nnn : Addr) (s : State) : Result := .next (s.setI nnn)

/-- `ADD I, Vx`: a bounded add, no flag (rule R171). -/
def execAddI (x : RegIdx) (s : State) : Result :=
  orRaise (addrAdd s.i (s.reg x).toNat) fun a => .next (s.setI a)

/-- `LD F, Vx`: the glyph address of digit Vx; for Vx > 0x0F the spec's outcome `Unspecified`
(rule R172). -/
def execLdF (x : RegIdx) (s : State) : Result :=
  match glyphAddress (s.reg x) with
  | .ok a => .next (s.setI a)
  | .error r => .refused r

/-- `LD B, Vx`: the three decimal digits at I, I + 1, I + 2; I is not changed (rule R173). -/
def execLdB (x : RegIdx) (s : State) : Result :=
  orRaise (addrAdd s.i 2) fun _ => .next (s.setMem (s.mem.writeBlock s.i (bcdDigits (s.reg x))))

/-- `LD [I], Vx`: stores V0 to Vx from I upward, then I advances by x + 1 (rule R174). -/
def execStRegs (x : RegIdx) (s : State) : Result :=
  orRaise (addrAdd s.i (x.val + 1)) fun a => .next ((s.setMem (s.mem.writeBlock s.i (s.regBlock x))).setI a)

/-- `LD Vx, [I]`: loads V0 to Vx from I upward, then I advances by x + 1 (rule R175). -/
def execLdRegs (x : RegIdx) (s : State) : Result :=
  orRaise (addrAdd s.i (x.val + 1)) fun a => .next ((s.loadBlock x).setI a)

end Sys2Proof.Machine
end

