-- ==== Sys2Proof/Machine/LoadAlu.lean ====
section
/-! DEFINITION. Register loads, arithmetic, logic, shifts and the random byte (spec/42_load_alu.md).
Operands are read from the state before anything is written (rule R104 (a)). -/

namespace Sys2Proof.Machine

/-- `LD Vx, kk` (rule R140). -/
def execLdImm (x : RegIdx) (kk : Byte) (s : State) : Result := .next (s.setReg x kk)

/-- `ADD Vx, kk`: modulo 256, no flag (rule R141). -/
def execAddImm (x : RegIdx) (kk : Byte) (s : State) : Result := .next (s.setReg x (s.reg x + kk))

/-- `LD Vx, Vy` (rule R142). -/
def execLdReg (x y : RegIdx) (s : State) : Result := .next (s.setReg x (s.reg y))

/-- `OR Vx, Vy` (rule R143). -/
def execOrReg (x y : RegIdx) (s : State) : Result := .next (s.setReg x (s.reg x ||| s.reg y))

/-- `AND Vx, Vy` (rule R144). -/
def execAndReg (x y : RegIdx) (s : State) : Result := .next (s.setReg x (s.reg x &&& s.reg y))

/-- `XOR Vx, Vy` (rule R145). -/
def execXorReg (x y : RegIdx) (s : State) : Result := .next (s.setReg x (s.reg x ^^^ s.reg y))

/-- `ADDR Vx, Vy`: the low 8 bits of the 9-bit sum, VF the carry (rule R146). -/
def execAddReg (x y : RegIdx) (s : State) : Result :=
  let a := s.reg x
  let b := s.reg y
  .next (s.setFlagThenReg (carryFlag a b) x (BitVec.ofNat 8 (a.toNat + b.toNat)))

/-- `SUB Vx, Vy`: Vx - Vy modulo 256, VF 1 if Vx > Vy (rule R147). -/
def execSubReg (x y : RegIdx) (s : State) : Result :=
  let a := s.reg x
  let b := s.reg y
  .next (s.setFlagThenReg (greaterFlag a b) x (a - b))

/-- `SHR Vx, Vy`: Vy is not read (rule R148). -/
def execShr (x _y : RegIdx) (s : State) : Result :=
  let a := s.reg x
  .next (s.setFlagThenReg (lowBitFlag a) x (a >>> 1))

/-- `SUBN Vx, Vy`: Vy - Vx modulo 256, VF 1 if Vy > Vx (rule R149). -/
def execSubnReg (x y : RegIdx) (s : State) : Result :=
  let a := s.reg x
  let b := s.reg y
  .next (s.setFlagThenReg (greaterFlag b a) x (b - a))

/-- `SHL Vx, Vy`: Vy is not read (rule R150). -/
def execShl (x _y : RegIdx) (s : State) : Result :=
  let a := s.reg x
  .next (s.setFlagThenReg (highBitFlag a) x (a <<< 1))

/-- `RND Vx, kk`: a free byte under the mask (rule R151). -/
def execRnd (x : RegIdx) (kk : Byte) (s : State) : Result :=
  let d := s.draw
  .next (d.2.setReg x (d.1 &&& kk))

end Sys2Proof.Machine
end

