-- ==== Sys2Proof/Machine/TimerKey.lean ====
section
/-! DEFINITION. The timer and keyboard instructions (spec/45_timer_key.md). -/

namespace Sys2Proof.Machine

/-- `SKP Vx`: skips if Vx is the latched key (rule R210). -/
def execSkp (x : RegIdx) (s : State) : Result := s.afterKeyRead.skipIf (s.keyIs (s.reg x))

/-- `SKNP Vx`: the complement (rule R211). -/
def execSknp (x : RegIdx) (s : State) : Result := s.afterKeyRead.skipIf (!s.keyIs (s.reg x))

/-- `LD Vx, DT` (rule R212). -/
def execLdVxDt (x : RegIdx) (s : State) : Result := .next (s.setReg x s.dt)

/-- `LD Vx, K`: with an empty latch the pc goes back by 2, to the instruction itself; with a full one the
key is stored (rule R213). -/
def execLdVxK (x : RegIdx) (s : State) : Result :=
  match s.key with
  | none => .next (s.setPc (s.pc - 2))
  | some k => .next (s.setReg x (k.setWidth 8)).afterKeyRead

/-- `LD DT, Vx` (rule R214). -/
def execLdDtVx (x : RegIdx) (s : State) : Result := .next (s.setDt (s.reg x))

/-- `LD ST, Vx` (rule R215). -/
def execLdStVx (x : RegIdx) (s : State) : Result := .next (s.setSt (s.reg x))

end Sys2Proof.Machine
end

