-- ==== Sys2Proof/Machine/Step.lean ====
section
/-! DEFINITION. The host operation `step` (spec/40_step_cycle.md rule R100). -/

namespace Sys2Proof.Machine

/-- One instruction: fetch, decode, advance, execute. -/
def step (s : State) : Host.Outcome State Fault Refusal :=
  orRaise s.prepare fun r => finishStep (exec r.1 r.2)

/-- `s` with the table word `w` of `nbits` bits stored where the next step fetches. -/
def State.withFetchWord (s : State) (nbits w : Nat) : State := s.placeOpcode (BitVec.ofNat 16 (w % 2 ^ nbits))

end Sys2Proof.Machine
end

