-- ==== Sys2Proof/Machine/HostOps.lean ====
section
/-! DEFINITION. The host operations other than `step` (spec/46_host_operations.md rules R230 to R235). -/

namespace Sys2Proof.Machine

/-- `construct(program)`, with the font as an argument too: the reset state with the font at 0x000 and the
program at 0x200, or no machine if the program does not fit (rules R28, R231 and R280). -/
def construct (font : Font) (program : List Byte) : Result :=
  if program.length ≤ Config.progMax then
    .next (State.reset.setMem ((State.reset.mem.writeBlock 0x000 font.toList).writeBlock Config.progBase program))
  else .refused (.programTooLong program.length)

/-- A timer's decrement by one, saturating at zero (rule R232). -/
def countDown (b : Byte) : Byte := if b = 0 then 0 else b - 1

/-- `tick()`: both timers count down on their own (rule R232). -/
def State.tick (s : State) : State := (s.setDt (countDown s.dt)).setSt (countDown s.st)

/-- `set_key(code)`: replaces the latch (rule R233). -/
def State.setKey (s : State) (k : KeyCode) : State := s.setKeyLatch (some k)

/-- `clear_key()`: empties the latch (rule R234). -/
def State.clearKey (s : State) : State := s.setKeyLatch none

/-- What `render()` yields: every dirty coordinate with its pixel's value now, as a set (rule R235). -/
def State.renderSet (s : State) : Finset (Fin 64 × Fin 32 × Bool) :=
  (Finset.univ.filter fun p : Fin 64 × Fin 32 => Plane.get s.dirty p.1 p.2 = true).image
    fun p => (p.1, p.2, Plane.get s.fb p.1 p.2)

/-- `render()`: yields the set and empties the dirty set (rule R235). -/
def State.render (s : State) : Finset (Fin 64 × Fin 32 × Bool) × State :=
  (s.renderSet, s.setDisplay { fb := s.fb, dirty := Plane.blank })

end Sys2Proof.Machine
end

