-- ==== Sys2Proof/Machine/Run.lean ====
section
/-! DEFINITION. Runs: what a host may do to a machine, in any order and any number
(spec/46_host_operations.md rule R237, spec/70_reset_and_hazards.md rule R289). -/

namespace Sys2Proof.Machine

/-- The host operations after `construct` (rule R230, table T-HOST). -/
inductive HostOp where
  | step
  | tick
  | setKey (k : KeyCode)
  | clearKey
  | render
deriving DecidableEq, Repr

/-- One host operation. Only `step` can fail (rules R9 and R237). What `render` hands to the host is
`State.renderSet`. -/
def applyOp (s : State) : HostOp → Result
  | .step => step s
  | .tick => .next s.tick
  | .setKey k => .next (s.setKey k)
  | .clearKey => .next s.clearKey
  | .render => .next s.render.2

/-- A run: it ends when the host stops, or at the first step that is no `next`; after a fault nothing more
is defined (rules R256 (d) and R289). -/
def runOps (s : State) : List HostOp → Result
  | [] => .next s
  | op :: ops =>
    match applyOp s op with
    | .next t => runOps t ops
    | .fault f => raise f
    | .refused r => .refused r

/-- An infinite schedule of the host: the operation it performs at each position (rule R237). It is the
host's choice and no part of State. -/
abbrev Schedule := Nat → HostOp

/-- One more operation of a run; after a fault or a refusal there is none (rules R256 (d) and R289). -/
def thenOp (r : Result) (op : HostOp) : Result :=
  match r with
  | .next s => applyOp s op
  | .fault f => raise f
  | .refused q => .refused q

/-- What an infinite run has come to after the first `n` operations of its schedule (rule R237). -/
def runFor (sched : Schedule) (s : State) : Nat → Result
  | 0 => .next s
  | n + 1 => thenOp (runFor sched s n) (sched n)

/-- The first `n` operations of a schedule. -/
def Schedule.firstOps (sched : Schedule) (n : Nat) : List HostOp := (List.range n).map sched

end Sys2Proof.Machine
end

