-- ==== Sys2Proof/Safety.lean ====
section
/-! DEFINITION. What claims about the machine are stated in: what stays unchanged (spec/10_state.md rule R33),
the invariant of every reachable state (rule R35), a finished program (spec/70_reset_and_hazards.md rule
R289), the pixels a sprite covers (spec/44_display.md rule R193), and agreement of two states on what a
program cannot see (rule R36). -/

namespace Sys2Proof.Machine

/-! ## Frames -/

/-- The pieces of state, as table T-WRITERS lists them (rule R33), and the model's own draw counter. -/
inductive Item where
  | regs
  | pc
  | index
  | stack
  | delay
  | sound
  | memory
  | screen
  | dirty
  | key
  | draws
deriving DecidableEq, Repr

/-- The item reads the same in both states; memory byte by byte, the planes pixel by pixel. -/
def SameItem (s t : State) : Item → Prop
  | .regs => ∀ r : RegIdx, t.reg r = s.reg r
  | .pc => t.pc = s.pc
  | .index => t.i = s.i
  | .stack => t.sp = s.sp ∧ ∀ j : Fin 16, t.stack[j.val] = s.stack[j.val]
  | .delay => t.dt = s.dt
  | .sound => t.st = s.st
  | .memory => ∀ a : Addr, t.mem.read a = s.mem.read a
  | .screen => ∀ (x : Fin 64) (y : Fin 32), Plane.get t.fb x y = Plane.get s.fb x y
  | .dirty => ∀ (x : Fin 64) (y : Fin 32), Plane.get t.dirty x y = Plane.get s.dirty x y
  | .key => t.key = s.key
  | .draws => t.draws = s.draws

/-- Every item that is not named reads as before. -/
def FrameBut (changed : List Item) (s t : State) : Prop := ∀ it : Item, it ∉ changed → SameItem s t it

/-- Every register that is not named reads as before. -/
def RegsBut (dests : List RegIdx) (s t : State) : Prop := ∀ r : RegIdx, r ∉ dests → t.reg r = s.reg r

/-- Every byte of memory outside the `n` bytes from address `a` reads as before. -/
def BytesBut (a n : Nat) (s t : State) : Prop :=
  ∀ b : Addr, b.toNat < a ∨ a + n ≤ b.toNat → t.mem.read b = s.mem.read b

/-- The items an instruction can change besides the common advance of the pc (table T-WRITERS). The draw
counter is the model's own. -/
def itemsWritten : Instr → List Item
  | .cls => [.screen, .dirty]
  | .ret => [.pc, .stack]
  | .sys _ => []
  | .jp _ => [.pc]
  | .call _ => [.pc, .stack]
  | .seImm _ _ | .sneImm _ _ => [.pc]
  | .seReg _ _ | .sneReg _ _ => [.pc]
  | .ldImm _ _ | .addImm _ _ => [.regs]
  | .ldReg _ _ | .orReg _ _ | .andReg _ _ | .xorReg _ _ => [.regs]
  | .addReg _ _ | .subReg _ _ | .shr _ _ | .subnReg _ _ | .shl _ _ => [.regs]
  | .ldI _ => [.index]
  | .jpV0 _ => [.pc]
  | .rnd _ _ => [.regs, .draws]
  | .drw _ _ _ => [.regs, .screen, .dirty]
  | .skp _ | .sknp _ => [.pc]
  | .ldVxDt _ => [.regs]
  | .ldVxK _ => [.regs, .pc]
  | .ldDtVx _ => [.delay]
  | .ldStVx _ => [.sound]
  | .addI _ | .ldF _ => [.index]
  | .ldB _ => [.memory]
  | .stRegs _ => [.memory, .index]
  | .ldRegs _ => [.regs, .index]

/-- The registers an instruction can change (table T-WRITERS). -/
def regsWritten : Instr → List RegIdx
  | .ldImm x _ | .addImm x _ | .rnd x _ => [x]
  | .ldReg x _ | .orReg x _ | .andReg x _ | .xorReg x _ => [x]
  | .addReg x _ | .subReg x _ | .shr x _ | .subnReg x _ | .shl x _ => [x, flagReg]
  | .drw _ _ _ => [flagReg]
  | .ldVxDt x | .ldVxK x => [x]
  | .ldRegs x => (List.finRange 16).filter fun r => r.val ≤ x.val
  | .cls | .ret | .sys _ | .jp _ | .call _ | .seImm _ _ | .sneImm _ _ | .seReg _ _ | .sneReg _ _ => []
  | .ldI _ | .jpV0 _ | .skp _ | .sknp _ | .ldDtVx _ | .ldStVx _ | .addI _ | .ldF _ | .ldB _ => []
  | .stRegs _ => []

/-- The items the host operations other than `step` can change (table T-WRITERS). -/
def hostItems : HostOp → List Item
  | .step => [.regs, .pc, .index, .stack, .delay, .sound, .memory, .screen, .dirty, .draws]
  | .tick => [.delay, .sound]
  | .setKey _ | .clearKey => [.key]
  | .render => [.dirty]

/-! ## Sprites -/

/-- The sprite of Dxyn, drawn from state `s`, has a 1 bit at the pixel (cx, cy): some row below n and some
column below 8 have it, with wrapping per pixel (rule R193 (a) to (c)). -/
def SpriteCovers (s : State) (x y : RegIdx) (n : Fin 16) (cx : Fin 64) (cy : Fin 32) : Prop :=
  ∃ row col : Nat, row < n.val ∧ col < 8 ∧
    (s.mem.read (s.i + BitVec.ofNat 12 row)).getLsbD (7 - col) = true ∧
    ((s.reg x).toNat + col) % 64 = cx.val ∧ ((s.reg y).toNat + row) % 32 = cy.val

/-! ## Reachable states and runs -/

/-- Every live stack entry is an address a CALL can have pushed: 0x002 to 0xFFF (rules R24, R35 and
R121). -/
def State.StackLive (s : State) : Prop := ∀ j : Fin 16, j.val < s.sp.val → 2 ≤ (s.stack[j.val]).toNat

/-- The invariant of reachable states: memory in canonical form and live stack entries in range. The other
bounds of rule R35 are those of the fields' types. -/
def State.Inv (s : State) : Prop := s.mem.wf ∧ s.StackLive

/-- A run that has not failed (rule R289 (b)). -/
def Succeeded (r : Result) : Prop := ∃ t, r = .next t

/-- An infinite run that never fails: each of its operations has a next state (rules R237 and R289). -/
def RunsForever (sched : Schedule) (s : State) : Prop := ∀ n : Nat, Succeeded (runFor sched s n)

/-- The program sits on a jump to its own address that can execute (rule R289 (c)). -/
def State.Finished (s : State) : Prop :=
  s.pc.toNat ≤ 0xFFD ∧ s.fetch = .ok (BitVec.ofNat 16 (0x1000 + s.pc.toNat))

/-! ## What a program cannot see -/

/-- The two states agree on everything but the sound timer, the dirty set and the dead stack slots, which
no instruction can read (rules R26, R30, R36 and R281). -/
def State.SameVisible (s t : State) : Prop :=
  s.v = t.v ∧ s.pc = t.pc ∧ s.i = t.i ∧ s.sp = t.sp ∧
  (∀ j : Fin 16, j.val < s.sp.val → s.stack[j.val] = t.stack[j.val]) ∧
  s.dt = t.dt ∧ s.mem = t.mem ∧ s.fb = t.fb ∧ s.key = t.key ∧ s.draws = t.draws

/-- Two outcomes of the same kind: the same fault, the same refusal, or next states that a program cannot
tell apart. -/
def SameOutcome : Result → Result → Prop
  | .next s, .next t => s.SameVisible t
  | .fault f, .fault g => f = g
  | .refused q, .refused r => q = r
  | .next _, .fault _ | .next _, .refused _ | .fault _, .next _ => False
  | .fault _, .refused _ | .refused _, .next _ | .refused _, .fault _ => False

end Sys2Proof.Machine
end

