-- ==== Sys2Proof/Certificates/Slice0/Obligations.lean ====
section
/-! DEFINITION. The statements for the provers, file by file of spec/. A rule number in a docstring is the
rule a statement formalises; a decision D<n> is one of 92_eei_decisions.md, the spec's own choice; an
assumption number is an entry of notes/assumptions. -/

open Sys2Proof Sys2Proof.Machine

/-! ## Shapes shared by the statements about instructions -/

namespace Sys2Proof.Claims

/-- The instruction completes, writes one general register and changes nothing else. -/
def WritesOneReg (i : Instr) (s : State) (x : RegIdx) (value : Nat) : Prop :=
  ∃ t, exec i s = .next t ∧ (t.reg x).toNat = value ∧ RegsBut [x] s t ∧ FrameBut [.regs] s t

/-- The instruction completes, writes VF with a flag and the destination with a result, the result winning
where the destination is VF, and changes nothing else. -/
def WritesFlagAndReg (i : Instr) (s : State) (x : RegIdx) (flag result : Nat) : Prop :=
  ∃ t, exec i s = .next t ∧ (t.reg x).toNat = result ∧ (x ≠ 15 → (t.reg 15).toNat = flag) ∧
    RegsBut [x, 15] s t ∧ FrameBut [.regs] s t

/-- The instruction skips exactly where the condition holds: it completes with the pc 2 further, or faults
where that is no address; where the condition fails nothing changes. -/
def SkipsWhen (i : Instr) (s : State) (c : Prop) : Prop :=
  (c → s.pc.toNat ≤ 0xFFD → ∃ t, exec i s = .next t ∧ t.pc.toNat = s.pc.toNat + 2 ∧ FrameBut [.pc] s t) ∧
  (c → 0xFFD < s.pc.toNat → exec i s = .fault (.addressRange (s.pc.toNat + 2))) ∧
  (¬c → exec i s = .next s)

end Sys2Proof.Claims

open Sys2Proof.Claims

/-! ## 00_scope.md -/

/-- R13: the bounded add gives the exact sum or AddressRangeError with it. -/
def Obligations.AddressAddNeverWraps : Prop :=
  ∀ (a : Addr) (k : Nat),
    (a.toNat + k ≤ 0xFFF → ∃ b, addrAdd a k = .ok b ∧ b.toNat = a.toNat + k) ∧
    (0xFFF < a.toNat + k → addrAdd a k = .error (.addressRange (a.toNat + k)))

/-- R14: a byte write is seen by the read of that address and of no other, in every memory; the 2-byte
read is the fetch, with the byte at the lower address the more significant. -/
def Obligations.MemoryReadAfterWrite : Prop :=
  (∀ (m : Memory) (a c : Addr) (b : Byte), (m.write a b).read c = if c = a then b else m.read c) ∧
  (∀ s : State,
    (s.pc.toNat ≤ 0xFFE → ∃ op, s.fetch = .ok op ∧
      op.toNat = (s.mem.read s.pc).toNat * 256 + (s.mem.read (s.pc + 1)).toNat) ∧
    (s.pc.toNat = 0xFFF → s.fetch = .error (.addressRange 0x1000)))

/-! ## 10_state.md -/

/-- R34, R280: the state after `construct` is table T-RESET, for every font of 80 bytes and every program
that fits, and a longer program yields no machine (R231). Basis derived: the fill byte 0x00, the clear
screen, the empty dirty set and latch and the length bound are the spec's decisions D8, D9, D10 and D11. -/
def Obligations.ConstructGivesResetTable : Prop :=
  ∀ (font : Font) (program : List Byte),
    (program.length ≤ 3584 → ∃ s, construct font program = .next s ∧
      (∀ r : RegIdx, s.reg r = 0x00) ∧ s.pc = 0x200 ∧ s.i = 0x000 ∧ s.sp.val = 0 ∧
      s.dt = 0x00 ∧ s.st = 0x00 ∧ s.key = none ∧
      (∀ (x : Fin 64) (y : Fin 32), Plane.get s.fb x y = false ∧ Plane.get s.dirty x y = false) ∧
      (∀ (j : Nat) (h : j < 80), s.mem.read (BitVec.ofNat 12 j) = font[j]) ∧
      (∀ (j : Nat) (h : j < program.length), s.mem.read (BitVec.ofNat 12 (0x200 + j)) = program[j]) ∧
      (∀ a : Addr, 80 ≤ a.toNat → (a.toNat < 0x200 ∨ 0x200 + program.length ≤ a.toNat) →
        s.mem.read a = 0x00)) ∧
    (3584 < program.length → construct font program = .refused (.programTooLong program.length))

/-- R231, R282: `State.reset` is what `construct` gives with the default font and the empty program.
Basis derived: the default font is decision D16 (assumption 3). -/
def Obligations.ResetIsEmptyConstruct : Prop := construct Config.font [] = .next State.reset

/-- R33, table T-WRITERS: whatever a host operation changes is listed for it; a step changes only the pc and
what the table lists for the instruction it fetched, and of the registers only the instruction's destination
and VF where it is the flag (R20, R21). Basis derived: that no other instruction writes VF is decision D4
(assumption 11), that no step writes the latch is D6 (assumption 9), and the draw counter is the model's own
(assumption 1). -/
def Obligations.OnlyListedWritersWrite : Prop :=
  (∀ (op : HostOp) (s t : State), applyOp s op = .next t → FrameBut (hostItems op) s t) ∧
  (∀ s t : State, step s = .next t → ∃ op i, s.fetch = .ok op ∧ decode op = .ok i ∧
    FrameBut (.pc :: itemsWritten i) s t ∧ RegsBut (regsWritten i) s t)

/-- R35: the invariant of reachable states holds at reset. Basis derived: the rule is the spec's own
inference. -/
def Obligations.ResetMeetsInvariant : Prop := State.reset.Inv

/-- R35: every host operation, `step` among them, keeps the invariant, from every state that meets it.
Basis derived: the rule is the spec's own inference. -/
def Obligations.EveryOperationKeepsInvariant : Prop :=
  ∀ (op : HostOp) (s t : State), s.Inv → applyOp s op = .next t → t.Inv

/-- R35: every run from every construction ends, where it succeeds, in a state that meets the invariant.
Basis derived: the rule is the spec's own inference. -/
def Obligations.EveryRunMeetsInvariant : Prop :=
  ∀ (font : Font) (program : List Byte) (s t : State) (ops : List HostOp),
    construct font program = .next s → runOps s ops = .next t → t.Inv

/-- R36, R281: the sound timer, the dirty set and the dead stack slots do not influence a step: from two
states that differ in these alone a step has the same outcome, and again differs in these alone. Basis
derived: the unobservable slots are decision D23. -/
def Obligations.StepIgnoresHiddenState : Prop :=
  ∀ s t : State, s.SameVisible t → SameOutcome (step s) (step t)

/-! ## 20_memory.md -/

/-- R50: the opcode's high byte is the byte at the pc and its low byte the one after it, and the bytes 0x60,
0x05 are the opcode 0x6005. -/
def Obligations.FetchIsBigEndian : Prop :=
  (∀ (s : State) (op : Opcode), s.fetch = .ok op →
    op.extractLsb' 8 8 = s.mem.read s.pc ∧ op.extractLsb' 0 8 = s.mem.read (s.pc + 1)) ∧
  (∀ s : State, s.pc = 0x200 → s.mem.read 0x200 = 0x60 → s.mem.read 0x201 = 0x05 → s.fetch = .ok 0x6005)

/-- R61: an opcode stored at the pc is the one the next step fetches. Basis derived: the rule is the spec's
own inference. -/
def Obligations.StoredOpcodeIsFetched : Prop :=
  ∀ (s : State) (op : Opcode), s.pc.toNat ≤ 0xFFE →
    (s.setMem ((s.mem.write s.pc (op.extractLsb' 8 8)).write (s.pc + 1) (op.extractLsb' 0 8))).fetch = .ok op

/-! ## 30_encoding.md -/

/-- R74, R76: a few opcodes of every family, from the table's patterns, decode to their instructions or to
nothing. -/
def Obligations.SampleOpcodesDecode : Prop :=
  decode 0x00E0 = .ok .cls ∧ decode 0x00EE = .ok .ret ∧ decode 0x0000 = .ok (.sys 0x000) ∧
  decode 0x00E1 = .ok (.sys 0x0E1) ∧ decode 0x1ABC = .ok (.jp 0xABC) ∧ decode 0x2300 = .ok (.call 0x300) ∧
  decode 0x332A = .ok (.seImm 3 0x2A) ∧ decode 0x4E17 = .ok (.sneImm 14 0x17) ∧
  decode 0x5120 = .ok (.seReg 1 2) ∧
  decode 0x5121 = .error (.illegalOpcode 0x5121) ∧ decode 0x6005 = .ok (.ldImm 0 0x05) ∧
  decode 0x70FF = .ok (.addImm 0 0xFF) ∧
  decode 0x8AB6 = .ok (.shr 10 11) ∧ decode 0x8AB8 = .error (.illegalOpcode 0x8AB8) ∧
  decode 0x9AB0 = .ok (.sneReg 10 11) ∧ decode 0xA2F0 = .ok (.ldI 0x2F0) ∧
  decode 0xBF0E = .ok (.jpV0 0xF0E) ∧
  decode 0xC30F = .ok (.rnd 3 0x0F) ∧ decode 0xD125 = .ok (.drw 1 2 5) ∧ decode 0xEF9E = .ok (.skp 15) ∧
  decode 0xE19F = .error (.illegalOpcode 0xE19F) ∧ decode 0xF30A = .ok (.ldVxK 3) ∧
  decode 0xF365 = .ok (.ldRegs 3) ∧ decode 0xF375 = .error (.illegalOpcode 0xF375)

/-- R76, table T-OPCODES: every row's pattern, with its operands at every value, decodes to the row's
instruction; 00E0 and 00EE come before 0nnn. The words are written out from the table and not by `encode`.
Basis derived: the numbers are the table's match column, the spec's inference from the pattern. -/
def Obligations.TablePatternsDecode : Prop :=
  ∀ (nnn : Addr) (x y : RegIdx) (kk : Byte) (n : Fin 16),
    decode 0x00E0 = .ok .cls ∧
    decode 0x00EE = .ok .ret ∧
    (nnn ≠ 0x0E0 → nnn ≠ 0x0EE → decode (BitVec.ofNat 16 nnn.toNat) = .ok (.sys nnn)) ∧
    decode (BitVec.ofNat 16 (0x1000 + nnn.toNat)) = .ok (.jp nnn) ∧
    decode (BitVec.ofNat 16 (0x2000 + nnn.toNat)) = .ok (.call nnn) ∧
    decode (BitVec.ofNat 16 (0xA000 + nnn.toNat)) = .ok (.ldI nnn) ∧
    decode (BitVec.ofNat 16 (0xB000 + nnn.toNat)) = .ok (.jpV0 nnn) ∧
    decode (BitVec.ofNat 16 (0x3000 + x.val * 0x100 + kk.toNat)) = .ok (.seImm x kk) ∧
    decode (BitVec.ofNat 16 (0x4000 + x.val * 0x100 + kk.toNat)) = .ok (.sneImm x kk) ∧
    decode (BitVec.ofNat 16 (0x6000 + x.val * 0x100 + kk.toNat)) = .ok (.ldImm x kk) ∧
    decode (BitVec.ofNat 16 (0x7000 + x.val * 0x100 + kk.toNat)) = .ok (.addImm x kk) ∧
    decode (BitVec.ofNat 16 (0xC000 + x.val * 0x100 + kk.toNat)) = .ok (.rnd x kk) ∧
    decode (BitVec.ofNat 16 (0x5000 + x.val * 0x100 + y.val * 0x10)) = .ok (.seReg x y) ∧
    decode (BitVec.ofNat 16 (0x8000 + x.val * 0x100 + y.val * 0x10)) = .ok (.ldReg x y) ∧
    decode (BitVec.ofNat 16 (0x8001 + x.val * 0x100 + y.val * 0x10)) = .ok (.orReg x y) ∧
    decode (BitVec.ofNat 16 (0x8002 + x.val * 0x100 + y.val * 0x10)) = .ok (.andReg x y) ∧
    decode (BitVec.ofNat 16 (0x8003 + x.val * 0x100 + y.val * 0x10)) = .ok (.xorReg x y) ∧
    decode (BitVec.ofNat 16 (0x8004 + x.val * 0x100 + y.val * 0x10)) = .ok (.addReg x y) ∧
    decode (BitVec.ofNat 16 (0x8005 + x.val * 0x100 + y.val * 0x10)) = .ok (.subReg x y) ∧
    decode (BitVec.ofNat 16 (0x8006 + x.val * 0x100 + y.val * 0x10)) = .ok (.shr x y) ∧
    decode (BitVec.ofNat 16 (0x8007 + x.val * 0x100 + y.val * 0x10)) = .ok (.subnReg x y) ∧
    decode (BitVec.ofNat 16 (0x800E + x.val * 0x100 + y.val * 0x10)) = .ok (.shl x y) ∧
    decode (BitVec.ofNat 16 (0x9000 + x.val * 0x100 + y.val * 0x10)) = .ok (.sneReg x y) ∧
    decode (BitVec.ofNat 16 (0xD000 + x.val * 0x100 + y.val * 0x10 + n.val)) = .ok (.drw x y n) ∧
    decode (BitVec.ofNat 16 (0xE09E + x.val * 0x100)) = .ok (.skp x) ∧
    decode (BitVec.ofNat 16 (0xE0A1 + x.val * 0x100)) = .ok (.sknp x) ∧
    decode (BitVec.ofNat 16 (0xF007 + x.val * 0x100)) = .ok (.ldVxDt x) ∧
    decode (BitVec.ofNat 16 (0xF00A + x.val * 0x100)) = .ok (.ldVxK x) ∧
    decode (BitVec.ofNat 16 (0xF015 + x.val * 0x100)) = .ok (.ldDtVx x) ∧
    decode (BitVec.ofNat 16 (0xF018 + x.val * 0x100)) = .ok (.ldStVx x) ∧
    decode (BitVec.ofNat 16 (0xF01E + x.val * 0x100)) = .ok (.addI x) ∧
    decode (BitVec.ofNat 16 (0xF029 + x.val * 0x100)) = .ok (.ldF x) ∧
    decode (BitVec.ofNat 16 (0xF033 + x.val * 0x100)) = .ok (.ldB x) ∧
    decode (BitVec.ofNat 16 (0xF055 + x.val * 0x100)) = .ok (.stRegs x) ∧
    decode (BitVec.ofNat 16 (0xF065 + x.val * 0x100)) = .ok (.ldRegs x)

/-- R90: decoding the encoding of a well-formed instruction gives it back, for every instruction and every
operand. Basis derived: the encoder is test software by R4. -/
def Obligations.DecodeOfEncode : Prop :=
  ∀ i : Instr, i.wellFormed = true → decode (encode i) = .ok i

/-- R90: an opcode that decodes is reproduced by encoding, its instruction is well formed, and two legal
opcodes never decode to one instruction. Basis derived: the consequences are the spec's inference. -/
def Obligations.EncodeOfDecode : Prop :=
  (∀ (op : Opcode) (i : Instr), decode op = .ok i → encode i = op ∧ i.wellFormed = true) ∧
  (∀ (p q : Opcode) (i : Instr), decode p = .ok i → decode q = .ok i → p = q)

/-- R79, table T-ILLEGAL: the opcodes that decode to nothing are exactly the table's, and the verdict carries
the raw opcode. Basis derived: part of the table is the spec's inference. -/
def Obligations.IllegalOpcodesExactly : Prop :=
  ∀ op : Opcode,
    (decode op = .error (.illegalOpcode op) ↔
      (op.extractLsb' 12 4 = 0x5 ∧ op.extractLsb' 0 4 ≠ 0x0) ∨
      (op.extractLsb' 12 4 = 0x8 ∧
        op.extractLsb' 0 4 ∈ ([0x8, 0x9, 0xA, 0xB, 0xC, 0xD, 0xF] : List (BitVec 4))) ∨
      (op.extractLsb' 12 4 = 0x9 ∧ op.extractLsb' 0 4 ≠ 0x0) ∨
      (op.extractLsb' 12 4 = 0xE ∧ op.extractLsb' 0 8 ∉ ([0x9E, 0xA1] : List Byte)) ∨
      (op.extractLsb' 12 4 = 0xF ∧
        op.extractLsb' 0 8 ∉ ([0x07, 0x0A, 0x15, 0x18, 0x1E, 0x29, 0x33, 0x55, 0x65] : List Byte))) ∧
    (∀ e, decode op = .error e → e = .illegalOpcode op)

/-! ## 40_step_cycle.md -/

/-- R100: a step is fetch, decode, advance, execute, the first phase that raises deciding the fault; where
none of the first three raises, it is `exec` of the decoded instruction with the pc 2 further. Basis derived:
the faults at 0xFFF and 0xFFE are decision D14 (assumption 12), and the address in DecodeError is D13
(assumption 13). -/
def Obligations.StepRunsDecodedInstruction : Prop :=
  ∀ s : State,
    (s.pc.toNat = 0xFFF → step s = .fault (.addressRange 0x1000)) ∧
    (∀ op, s.fetch = .ok op → (∀ i, decode op ≠ .ok i) → step s = .fault (.decodeError op s.pc)) ∧
    (∀ op i, s.fetch = .ok op → decode op = .ok i → s.pc.toNat = 0xFFE →
      step s = .fault (.addressRange 0x1000)) ∧
    (∀ op i, s.fetch = .ok op → decode op = .ok i → s.pc.toNat ≤ 0xFFD →
      step s = exec i (s.setPc (s.pc + 2)))

/-- R103: no instruction at 0xFFE or 0xFFF completes. Basis derived: decision D14. -/
def Obligations.NothingCompletesAboveFFD : Prop :=
  ∀ s t : State, step s = .next t → s.pc.toNat ≤ 0xFFD

/-- R106: a step does not touch the key latch, takes nothing out of the dirty set, and changes a timer only
by the instruction that loads it, with the register's value. Basis derived: the untouched latch is decision
D6. -/
def Obligations.StepLeavesTimersAndLatch : Prop :=
  ∀ (s t : State), step s = .next t →
    t.key = s.key ∧
    (∀ (x : Fin 64) (y : Fin 32), Plane.get s.dirty x y = true → Plane.get t.dirty x y = true) ∧
    (t.dt ≠ s.dt → ∃ op x, s.fetch = .ok op ∧ decode op = .ok (.ldDtVx x) ∧ t.dt = s.reg x) ∧
    (t.st ≠ s.st → ∃ op x, s.fetch = .ok op ∧ decode op = .ok (.ldStVx x) ∧ t.st = s.reg x)

/-! ## 41_control_flow.md. The pc of the state an instruction executes in is already `a + 2`. -/

/-- R120: 0nnn decodes to SYS except at 0x0E0 and 0x0EE, its execute phase changes nothing, and a step over
it only advances the pc by 2. -/
def Obligations.SysIsIgnored : Prop :=
  ∀ (nnn : Addr) (s : State),
    (nnn ≠ 0x0E0 → nnn ≠ 0x0EE → decode (BitVec.ofNat 16 nnn.toNat) = .ok (.sys nnn)) ∧
    (∃ t, exec (.sys nnn) s = .next t ∧ FrameBut [] s t) ∧
    (nnn ≠ 0x0E0 → nnn ≠ 0x0EE → s.fetch = .ok (BitVec.ofNat 16 nnn.toNat) → s.pc.toNat ≤ 0xFFD →
      ∃ t, step s = .next t ∧ t.pc.toNat = s.pc.toNat + 2 ∧ FrameBut [.pc] s t)

/-- R121: RET at SP > 0 completes with SP one lower and the pc from the slot SP then points at, every slot
as it was; at SP = 0 it is StackUnderflow. -/
def Obligations.ReturnPopsOrUnderflows : Prop :=
  decode 0x00EE = .ok .ret ∧
  ∀ s : State,
    (∀ j : Fin 16, s.sp.val = j.val + 1 → ∃ t, exec .ret s = .next t ∧ t.sp.val = j.val ∧
      t.pc = s.stack[j.val] ∧ (∀ k : Fin 16, t.stack[k.val] = s.stack[k.val]) ∧
      FrameBut [.pc, .stack] s t) ∧
    (s.sp.val = 0 → exec .ret s = .fault .stackUnderflow)

/-- R122: JP completes with the pc at its target and nothing else changed, whatever the target; a jump to its
own address leaves the whole state as the step found it; after a jump to 0xFFE or 0xFFF the next step
faults. -/
def Obligations.JumpSetsPc : Prop :=
  ∀ (nnn : Addr) (s : State),
    decode (BitVec.ofNat 16 (0x1000 + nnn.toNat)) = .ok (.jp nnn) ∧
    (∃ t, exec (.jp nnn) s = .next t ∧ t.pc = nnn ∧ FrameBut [.pc] s t ∧
      (0xFFE ≤ nnn.toNat → ∃ f, step t = .fault f)) ∧
    (s.Finished → step s = .next s)

/-- R123: CALL at SP < 16 saves the advanced pc in the slot at the old SP, increments SP and jumps; at
SP = 16 it is StackOverflow. -/
def Obligations.CallPushesOrOverflows : Prop :=
  ∀ (nnn : Addr) (s : State),
    decode (BitVec.ofNat 16 (0x2000 + nnn.toNat)) = .ok (.call nnn) ∧
    (∀ j : Fin 16, s.sp.val = j.val → ∃ t, exec (.call nnn) s = .next t ∧ t.sp.val = j.val + 1 ∧
      t.stack[j.val] = s.pc ∧ (∀ k : Fin 16, k ≠ j → t.stack[k.val] = s.stack[k.val]) ∧ t.pc = nnn ∧
      FrameBut [.pc, .stack] s t) ∧
    (s.sp.val = 16 → exec (.call nnn) s = .fault .stackOverflow)

/-- R124 to R127 and R105: the four register skips, taken exactly where their condition holds. Basis derived:
the fault of a skip out of range is the spec's inference. -/
def Obligations.RegisterSkips : Prop :=
  ∀ (x y : RegIdx) (kk : Byte) (s : State),
    SkipsWhen (.seImm x kk) s (s.reg x = kk) ∧ SkipsWhen (.sneImm x kk) s (s.reg x ≠ kk) ∧
    SkipsWhen (.seReg x y) s (s.reg x = s.reg y) ∧ SkipsWhen (.sneReg x y) s (s.reg x ≠ s.reg y)

/-- R128: JP V0 completes at the exact sum of nnn and V0, and faults with it where it is no address. -/
def Obligations.JumpWithOffset : Prop :=
  ∀ (nnn : Addr) (s : State),
    decode (BitVec.ofNat 16 (0xB000 + nnn.toNat)) = .ok (.jpV0 nnn) ∧
    (nnn.toNat + (s.reg 0).toNat ≤ 0xFFF → ∃ t, exec (.jpV0 nnn) s = .next t ∧
      t.pc.toNat = nnn.toNat + (s.reg 0).toNat ∧ FrameBut [.pc] s t) ∧
    (0xFFF < nnn.toNat + (s.reg 0).toNat →
      exec (.jpV0 nnn) s = .fault (.addressRange (nnn.toNat + (s.reg 0).toNat)))

/-- R130: a CALL that executes at `a` and a RET at its target, two steps of the machine, give the pc `a + 2`
and the SP of before. Basis derived: the rule is the spec's inference from R121 and R123. -/
def Obligations.CallThenReturn : Prop :=
  ∀ (s : State) (nnn : Addr), s.sp.val < 16 → s.pc.toNat ≤ 0xFFD → nnn.toNat ≤ 0xFFD →
    s.fetch = .ok (BitVec.ofNat 16 (0x2000 + nnn.toNat)) → (s.setPc nnn).fetch = .ok 0x00EE →
    ∃ t u, step s = .next t ∧ step t = .next u ∧ u.pc.toNat = s.pc.toNat + 2 ∧ u.sp = s.sp ∧
      FrameBut [.pc, .stack] s u

/-! ## 42_load_alu.md -/

/-- R140, R142 to R145: the loads and the bitwise operations write Vx alone, VF untouched unless x = 15.
Basis derived: the absent flag effects are decision D4. -/
def Obligations.LoadsAndLogicWriteVx : Prop :=
  ∀ (x y : RegIdx) (kk : Byte) (s : State),
    WritesOneReg (.ldImm x kk) s x kk.toNat ∧ WritesOneReg (.ldReg x y) s x (s.reg y).toNat ∧
    WritesOneReg (.orReg x y) s x ((s.reg x).toNat ||| (s.reg y).toNat) ∧
    WritesOneReg (.andReg x y) s x ((s.reg x).toNat &&& (s.reg y).toNat) ∧
    WritesOneReg (.xorReg x y) s x ((s.reg x).toNat ^^^ (s.reg y).toNat)

/-- R141: ADD Vx, kk is the sum modulo 256 and touches no flag. Basis derived: decisions D4 and D5. -/
def Obligations.AddImmediateWraps : Prop :=
  ∀ (x : RegIdx) (kk : Byte) (s : State),
    WritesOneReg (.addImm x kk) s x (((s.reg x).toNat + kk.toNat) % 256)

/-- R146: ADDR gives the low 8 bits of the 9-bit sum, and VF says whether it exceeds 255. Basis derived: for
x = 15 the result overwrites the flag by decision D3. -/
def Obligations.AddRegisterCarries : Prop :=
  ∀ (x y : RegIdx) (s : State),
    WritesFlagAndReg (.addReg x y) s x (if 255 < (s.reg x).toNat + (s.reg y).toNat then 1 else 0)
      (((s.reg x).toNat + (s.reg y).toNat) % 256)

/-- R147 and R149: the two subtractions modulo 256, VF 1 exactly where the minuend is strictly greater.
Basis derived: for x = 15 the result overwrites the flag by decision D3. -/
def Obligations.SubtractionsBorrow : Prop :=
  ∀ (x y : RegIdx) (s : State),
    WritesFlagAndReg (.subReg x y) s x (if (s.reg x).toNat > (s.reg y).toNat then 1 else 0)
      (((s.reg x).toNat + 256 - (s.reg y).toNat) % 256) ∧
    WritesFlagAndReg (.subnReg x y) s x (if (s.reg y).toNat > (s.reg x).toNat then 1 else 0)
      (((s.reg y).toNat + 256 - (s.reg x).toNat) % 256)

/-- R148 and R150: the shifts by one of Vx, whatever y is, VF the bit shifted out. Basis derived: for x = 15
the result overwrites the flag by decision D3. -/
def Obligations.ShiftsByOne : Prop :=
  ∀ (x y : RegIdx) (s : State),
    WritesFlagAndReg (.shr x y) s x ((s.reg x).toNat % 2) ((s.reg x).toNat / 2) ∧
    WritesFlagAndReg (.shl x y) s x ((s.reg x).toNat / 128) ((s.reg x).toNat * 2 % 256)

/-- R151: RND completes with the byte drawn, masked, in Vx, and with the draw counted; no bit outside the mask
is set, the old Vx has no influence on the draw, and nothing else changes. The byte drawn is the free value
`Config.randomByte` at the counter, so this holds for every byte. Basis derived: the free draw is decision D17,
and the counter is the model's own (assumption 1). -/
def Obligations.RandomUnderMask : Prop :=
  ∀ (x : RegIdx) (kk : Byte) (s : State),
    ∃ t, exec (.rnd x kk) s = .next t ∧
      t.reg x = Config.randomByte s.draws &&& kk ∧ t.draws = s.draws + 1 ∧
      (∀ b : Byte, ∃ u, exec (.rnd x kk) (s.setReg x b) = .next u ∧ u.reg x = t.reg x) ∧
      (∀ j, kk.getLsbD j = false → (t.reg x).getLsbD j = false) ∧
      RegsBut [x] s t ∧ FrameBut [.regs, .draws] s t

/-! ## 43_index_memory.md -/

/-- R170: LD I, nnn. -/
def Obligations.LoadIndex : Prop :=
  ∀ (nnn : Addr) (s : State),
    decode (BitVec.ofNat 16 (0xA000 + nnn.toNat)) = .ok (.ldI nnn) ∧
    ∃ t, exec (.ldI nnn) s = .next t ∧ t.i = nnn ∧ FrameBut [.index] s t

/-- R171: ADD I, Vx is the exact sum, or AddressRangeError with it; VF is not written. Basis derived: the
absent flag effect is decision D4. -/
def Obligations.AddToIndex : Prop :=
  ∀ (x : RegIdx) (s : State),
    (s.i.toNat + (s.reg x).toNat ≤ 0xFFF → ∃ t, exec (.addI x) s = .next t ∧
      t.i.toNat = s.i.toNat + (s.reg x).toNat ∧ FrameBut [.index] s t) ∧
    (0xFFF < s.i.toNat + (s.reg x).toNat →
      exec (.addI x) s = .fault (.addressRange (s.i.toNat + (s.reg x).toNat)))

/-- R172: LD F, Vx points I at the digit's glyph; for a value above 15 the outcome is `Unspecified`, which
is no fault. Basis derived: that outcome is decision D7 (assumption 2). -/
def Obligations.GlyphAddress : Prop :=
  ∀ (x : RegIdx) (s : State),
    ((s.reg x).toNat ≤ 15 → ∃ t, exec (.ldF x) s = .next t ∧ t.i.toNat = 5 * (s.reg x).toNat ∧
      FrameBut [.index] s t) ∧
    (15 < (s.reg x).toNat → exec (.ldF x) s = .refused (.unspecifiedGlyph (s.reg x)))

/-- R173: LD B, Vx stores the three decimal digits at I, I + 1 and I + 2 and nothing else; where I + 2 is no
address it is a fault. Basis derived: the check before the first store is decision D15. -/
def Obligations.StoreDecimalDigits : Prop :=
  ∀ (x : RegIdx) (s : State),
    (s.i.toNat ≤ 0xFFD → ∃ t, exec (.ldB x) s = .next t ∧
      (t.mem.read s.i).toNat = (s.reg x).toNat / 100 ∧
      (t.mem.read (s.i + 1)).toNat = (s.reg x).toNat / 10 % 10 ∧
      (t.mem.read (s.i + 2)).toNat = (s.reg x).toNat % 10 ∧
      BytesBut s.i.toNat 3 s t ∧ FrameBut [.memory] s t) ∧
    (0xFFD < s.i.toNat → exec (.ldB x) s = .fault (.addressRange (s.i.toNat + 2)))

/-- R174: LD [I], Vx stores V0 to Vx at I to I + x and nothing else and advances I by x + 1; where the new I
is no address it is a fault. Basis derived: the check before the first store is decision D15. -/
def Obligations.StoreRegisterBlock : Prop :=
  ∀ (x : RegIdx) (s : State),
    (s.i.toNat + x.val + 1 ≤ 0xFFF → ∃ t, exec (.stRegs x) s = .next t ∧
      (∀ j : RegIdx, j.val ≤ x.val → t.mem.read (s.i + BitVec.ofNat 12 j.val) = s.reg j) ∧
      t.i.toNat = s.i.toNat + x.val + 1 ∧
      BytesBut s.i.toNat (x.val + 1) s t ∧ FrameBut [.memory, .index] s t) ∧
    (0xFFF < s.i.toNat + x.val + 1 → exec (.stRegs x) s = .fault (.addressRange (s.i.toNat + x.val + 1)))

/-- R175: LD Vx, [I] loads V0 to Vx from I to I + x, leaves the registers above Vx, and advances I by x + 1;
where the new I is no address it is a fault. Basis derived: the check before the first load is decision
D15. -/
def Obligations.LoadRegisterBlock : Prop :=
  ∀ (x : RegIdx) (s : State),
    (s.i.toNat + x.val + 1 ≤ 0xFFF → ∃ t, exec (.ldRegs x) s = .next t ∧
      (∀ j : RegIdx, j.val ≤ x.val → t.reg j = s.mem.read (s.i + BitVec.ofNat 12 j.val)) ∧
      (∀ j : RegIdx, x.val < j.val → t.reg j = s.reg j) ∧
      t.i.toNat = s.i.toNat + x.val + 1 ∧ FrameBut [.regs, .index] s t) ∧
    (0xFFF < s.i.toNat + x.val + 1 → exec (.ldRegs x) s = .fault (.addressRange (s.i.toNat + x.val + 1)))

/-- R174 and R175: a block stored by Fx55 and loaded again by Fx65 from the same address comes back in the
registers. Basis derived: it follows from the two rules. -/
def Obligations.StoreThenLoadBlock : Prop :=
  ∀ (x : RegIdx) (s t u v : State), exec (.stRegs x) s = .next t →
    u.mem = t.mem → u.i = s.i → exec (.ldRegs x) u = .next v →
    v.i = t.i ∧ ∀ j : RegIdx, v.reg j = if j.val ≤ x.val then s.reg j else u.reg j

/-! ## 44_display.md -/

/-- R190: Toggle flips the wrapped pixel and no other, adds it and no other coordinate to the dirty set, and
returns whether it was set. -/
def Obligations.ToggleFlipsOnePixel : Prop :=
  ∀ (d : Display) (x y : Nat) (cx : Fin 64) (cy : Fin 32), cx.val = x % 64 → cy.val = y % 32 →
    (d.toggle x y).2 = Plane.get d.fb cx cy ∧
    ∀ (px : Fin 64) (py : Fin 32),
      Plane.get (d.toggle x y).1.fb px py =
        (if px = cx ∧ py = cy then !Plane.get d.fb px py else Plane.get d.fb px py) ∧
      (Plane.get (d.toggle x y).1.dirty px py = true ↔
        Plane.get d.dirty px py = true ∨ (px = cx ∧ py = cy))

/-- R191: ClearScreen clears every pixel and adds exactly the set ones to the dirty set. -/
def Obligations.ClearScreenMarksSetPixels : Prop :=
  ∀ (d : Display) (px : Fin 64) (py : Fin 32),
    Plane.get d.clear.fb px py = false ∧
    (Plane.get d.clear.dirty px py = true ↔ Plane.get d.dirty px py = true ∨ Plane.get d.fb px py = true)

/-- R192: CLS completes with a clear screen, the set pixels added to the dirty set, and nothing else changed.
Basis derived: the absent flag effect is decision D4. -/
def Obligations.ClearInstruction : Prop :=
  ∀ s : State, ∃ t, exec .cls s = .next t ∧
    (∀ (px : Fin 64) (py : Fin 32), Plane.get t.fb px py = false ∧
      (Plane.get t.dirty px py = true ↔ Plane.get s.dirty px py = true ∨ Plane.get s.fb px py = true)) ∧
    FrameBut [.screen, .dirty] s t

/-- R193: where all its rows are in memory, DRW completes: every pixel the sprite covers is flipped and dirty,
every other is as it was, VF is 1 exactly where a covered pixel was set, and the coordinates are those of
before VF is written. Basis derived: decisions D3, D21 and D25. -/
def Obligations.DrawIsXorWithCollision : Prop :=
  ∀ (x y : RegIdx) (n : Fin 16) (s : State), n.val = 0 ∨ s.i.toNat + n.val ≤ 0x1000 →
    ∃ t, exec (.drw x y n) s = .next t ∧
      (∀ (cx : Fin 64) (cy : Fin 32),
        (SpriteCovers s x y n cx cy →
          Plane.get t.fb cx cy = !Plane.get s.fb cx cy ∧ Plane.get t.dirty cx cy = true) ∧
        (¬SpriteCovers s x y n cx cy →
          Plane.get t.fb cx cy = Plane.get s.fb cx cy ∧ Plane.get t.dirty cx cy = Plane.get s.dirty cx cy)) ∧
      ((∃ cx cy, SpriteCovers s x y n cx cy ∧ Plane.get s.fb cx cy = true) → t.reg 15 = 1) ∧
      ((∀ cx cy, SpriteCovers s x y n cx cy → Plane.get s.fb cx cy = false) → t.reg 15 = 0) ∧
      RegsBut [15] s t ∧ FrameBut [.regs, .screen, .dirty] s t

/-- R193: a draw with a row out of memory is AddressRangeError(0x1000). Basis derived: the site is decision
D14. -/
def Obligations.DrawOutOfMemoryFaults : Prop :=
  ∀ (x y : RegIdx) (n : Fin 16) (s : State), n.val ≠ 0 → 0x1000 < s.i.toNat + n.val →
    exec (.drw x y n) s = .fault (.addressRange 0x1000)

/-- R194: the same draw twice restores every pixel; VF after the second is 1 where a covered pixel was clear
before the first, and over a clear screen with something to draw the first gives 0 and the second 1. Basis
derived: the rule is the spec's inference. -/
def Obligations.DrawTwiceRestores : Prop :=
  ∀ (x y : RegIdx) (n : Fin 16) (s t u v : State), exec (.drw x y n) s = .next t →
    u.fb = t.fb → u.reg x = s.reg x → u.reg y = s.reg y → u.i = s.i →
    (∀ a : Addr, u.mem.read a = s.mem.read a) → exec (.drw x y n) u = .next v →
    (∀ (cx : Fin 64) (cy : Fin 32), Plane.get v.fb cx cy = Plane.get s.fb cx cy) ∧
    ((∃ cx cy, SpriteCovers s x y n cx cy ∧ Plane.get s.fb cx cy = false) → v.reg 15 = 1) ∧
    ((∃ cx cy, SpriteCovers s x y n cx cy) →
      (∀ cx cy, SpriteCovers s x y n cx cy → Plane.get s.fb cx cy = false) →
      t.reg 15 = 0 ∧ v.reg 15 = 1)

/-! ## 45_timer_key.md -/

/-- R210 and R211: the key skips compare the whole register with the latched key, are complements in every
state, and leave the latch. Basis derived: the unmasked comparison is decision D29. -/
def Obligations.KeySkips : Prop :=
  ∀ (x : RegIdx) (s : State),
    SkipsWhen (.skp x) s (∃ k, s.key = some k ∧ k.toNat = (s.reg x).toNat) ∧
    SkipsWhen (.sknp x) s (¬∃ k, s.key = some k ∧ k.toNat = (s.reg x).toNat)

/-- R212: LD Vx, DT. -/
def Obligations.ReadDelayTimer : Prop :=
  ∀ (x : RegIdx) (s : State),
    decode (BitVec.ofNat 16 (0xF007 + x.val * 0x100)) = .ok (.ldVxDt x) ∧
    WritesOneReg (.ldVxDt x) s x s.dt.toNat

/-- R213: LD Vx, K with an empty latch puts the pc 2 back and changes nothing else; with a key it stores the
key and leaves the latch. Basis derived: that the latch keeps the key is decision D6, and that `pc - 2`
cannot underflow is the spec's inference. -/
def Obligations.KeyReadWaitsOrStores : Prop :=
  ∀ (x : RegIdx) (s : State),
    (s.key = none → 2 ≤ s.pc.toNat → ∃ t, exec (.ldVxK x) s = .next t ∧ t.pc.toNat = s.pc.toNat - 2 ∧
      FrameBut [.pc] s t) ∧
    (∀ k, s.key = some k → WritesOneReg (.ldVxK x) s x k.toNat)

/-- R214 and R215: the two timer loads. -/
def Obligations.LoadTimers : Prop :=
  ∀ (x : RegIdx) (s : State),
    decode (BitVec.ofNat 16 (0xF015 + x.val * 0x100)) = .ok (.ldDtVx x) ∧
    decode (BitVec.ofNat 16 (0xF018 + x.val * 0x100)) = .ok (.ldStVx x) ∧
    (∃ t, exec (.ldDtVx x) s = .next t ∧ t.dt = s.reg x ∧ FrameBut [.delay] s t) ∧
    (∃ t, exec (.ldStVx x) s = .next t ∧ t.st = s.reg x ∧ FrameBut [.sound] s t)

/-- R213 and R286: a step over Fx0A with an empty latch leaves the whole state as it was. Basis derived: the
net effect of two phases. -/
def Obligations.EmptyLatchSpins : Prop :=
  ∀ (x : RegIdx) (s : State), s.key = none → s.pc.toNat ≤ 0xFFD →
    s.fetch = .ok (BitVec.ofNat 16 (0xF00A + x.val * 0x100)) → step s = .next s

/-! ## 46_host_operations.md -/

/-- R232: tick counts each timer down by one, saturating at zero, and changes nothing else. -/
def Obligations.TickSaturates : Prop :=
  ∀ s : State, s.tick.dt.toNat = s.dt.toNat - 1 ∧ s.tick.st.toNat = s.st.toNat - 1 ∧
    FrameBut [.delay, .sound] s s.tick

/-- R233 and R234: the key operations replace the latch, whatever it held, and change nothing else. -/
def Obligations.KeyOperationsReplaceLatch : Prop :=
  ∀ (s : State) (k l : KeyCode),
    (s.setKey k).key = some k ∧ FrameBut [.key] s (s.setKey k) ∧ (s.setKey l).setKey k = s.setKey k ∧
    s.clearKey.key = none ∧ FrameBut [.key] s s.clearKey ∧ (s.key = none → s.clearKey = s)

/-- R235: render yields each dirty coordinate with its pixel's value and nothing else, empties the dirty set
and leaves all else; a second render yields nothing. Basis derived: that the result is a set is decision
D22. -/
def Obligations.RenderDrainsDirty : Prop :=
  ∀ s : State,
    (∀ (x : Fin 64) (y : Fin 32) (b : Bool),
      (x, y, b) ∈ s.render.1 ↔ Plane.get s.dirty x y = true ∧ Plane.get s.fb x y = b) ∧
    (∀ (x : Fin 64) (y : Fin 32), Plane.get s.render.2.dirty x y = false) ∧
    FrameBut [.dirty] s s.render.2 ∧ s.render.2.render.1 = ∅

/-- R235: a pixel that a step changes is dirty after it, so no change escapes the next render. Basis
derived: the sentence is the spec's inference. -/
def Obligations.EveryPixelChangeIsDirty : Prop :=
  ∀ (s t : State) (x : Fin 64) (y : Fin 32), step s = .next t →
    Plane.get t.fb x y ≠ Plane.get s.fb x y → Plane.get t.dirty x y = true

/-- R237: the host's operations in any infinite order. An infinite run has come, after n operations, to where
the finite run of the first n comes; the operation it fails at, if any, is a step; from every construction it
keeps the invariant at every position; from a finished program it runs for ever and stays finished. Basis
derived: the invariant is the spec's inference (R35) and a finished program is decision D24 (assumption 26). -/
def Obligations.InfiniteRuns : Prop :=
  ∀ (sched : Schedule) (s : State),
    (∀ n, runFor sched s n = runOps s (sched.firstOps n)) ∧
    (∀ n, Succeeded (runFor sched s n) → ¬Succeeded (runFor sched s (n + 1)) → sched n = .step) ∧
    (∀ font program, construct font program = .next s → ∀ n t, runFor sched s n = .next t → t.Inv) ∧
    (s.Finished → RunsForever sched s ∧ ∀ n t, runFor sched s n = .next t → t.Finished)

/-! ## 60_exceptions.md -/

/-- R255: in its execute phase an instruction raises at most the one kind of fault the rule lists for it, and
an address fault records a number from 0x1000 to 0x10FE (R250). Basis derived: the rule is the spec's
inference. -/
def Obligations.ExecuteFaultsByInstruction : Prop :=
  ∀ (i : Instr) (s : State) (f : Fault), exec i s = .fault f →
    ((∃ nnn, i = .call nnn) ∧ s.sp.val = 16 ∧ f = .stackOverflow) ∨
    (i = .ret ∧ s.sp.val = 0 ∧ f = .stackUnderflow) ∨
    ((∃ v, f = .addressRange v ∧ 0x1000 ≤ v ∧ v ≤ 0x10FE) ∧
      ((∃ x kk, i = .seImm x kk ∨ i = .sneImm x kk) ∨ (∃ x y, i = .seReg x y ∨ i = .sneReg x y) ∨
       (∃ x, i = .skp x ∨ i = .sknp x) ∨ (∃ nnn, i = .jpV0 nnn) ∨
       (∃ x, i = .addI x ∨ i = .ldB x ∨ i = .stRegs x ∨ i = .ldRegs x) ∨ (∃ x y n, i = .drw x y n)))

/-- R251: DecodeError is raised exactly by a fetched opcode that decodes to nothing, with that opcode and the
address it was fetched from, whatever the rest of the state; no opcode of families 0x0 to 0x4, 0x6, 0x7 and
0xA to 0xD is such an opcode. Basis derived: that the fault records the address is decision D13 (R250,
assumption 13). -/
def Obligations.DecodeErrorExactly : Prop :=
  (∀ (s : State) (op : Opcode) (a : Addr), step s = .fault (.decodeError op a) ↔
    a = s.pc ∧ s.fetch = .ok op ∧ ∀ i, decode op ≠ .ok i) ∧
  (∀ op : Opcode,
    op.extractLsb' 12 4 ∈
      ([0x0, 0x1, 0x2, 0x3, 0x4, 0x6, 0x7, 0xA, 0xB, 0xC, 0xD] : List (BitVec 4)) →
    ∃ i, decode op = .ok i)

/-- R252 and R253: the stack faults of a step: a CALL fetched at SP = 16, a RET fetched at SP = 0, and
nothing else. Basis derived: at a pc above 0xFFD the advance faults first (R103, R107), which is decision D14
(assumption 12). -/
def Obligations.StackFaultsExactly : Prop :=
  ∀ s : State,
    (step s = .fault .stackOverflow ↔
      s.pc.toNat ≤ 0xFFD ∧ s.sp.val = 16 ∧ ∃ op nnn, s.fetch = .ok op ∧ decode op = .ok (.call nnn)) ∧
    (step s = .fault .stackUnderflow ↔
      s.pc.toNat ≤ 0xFFD ∧ s.sp.val = 0 ∧ s.fetch = .ok 0x00EE)

/-- R9: a step has no outcome but a next state, a fault, and, for Fx29 with Vx above 15 alone,
`Unspecified`. Basis derived: the third outcome is decision D7 (assumption 2). -/
def Obligations.OnlyGlyphAboveFifteenIsUnspecified : Prop :=
  ∀ (s : State) (q : Refusal), step s = .refused q →
    ∃ op x, s.fetch = .ok op ∧ decode op = .ok (.ldF x) ∧ 15 < (s.reg x).toNat ∧
      q = .unspecifiedGlyph (s.reg x)

/-! ## 70_reset_and_hazards.md -/

/-- R289: once finished, a program stays finished under any sequence of host operations, the run never fails,
and only the timers, the latch and the dirty set can still change. Basis derived: decision D24. -/
def Obligations.FinishedStaysFinished : Prop :=
  ∀ (s : State) (ops : List HostOp), s.Finished →
    ∃ t, runOps s ops = .next t ∧ t.Finished ∧ FrameBut [.delay, .sound, .key, .dirty] s t
end

