-- ==== Sys2Proof/Laws/Decode.lean ====
section
/-! SUPPORT. The fields of a packed opcode, and an opcode packed again from its fields. -/

namespace Sys2Proof

theorem familyOf_eq (op : Opcode) : familyOf op = op.toNat / 4096 := by
  have := op.isLt
  simp [familyOf, BitVec.extractLsb'_toNat, Nat.shiftRight_eq_div_pow]
  omega

theorem fieldX_val (op : Opcode) : (fieldX op).val = op.toNat / 256 % 16 := by
  simp [fieldX, BitVec.extractLsb'_toNat, Nat.shiftRight_eq_div_pow]

theorem fieldY_val (op : Opcode) : (fieldY op).val = op.toNat / 16 % 16 := by
  simp [fieldY, BitVec.extractLsb'_toNat, Nat.shiftRight_eq_div_pow]

theorem fieldN_val (op : Opcode) : (fieldN op).val = op.toNat % 16 := by
  simp [fieldN, BitVec.extractLsb'_toNat]

theorem fieldKK_toNat (op : Opcode) : (fieldKK op).toNat = op.toNat % 256 := by
  simp [fieldKK, BitVec.extractLsb'_toNat]

theorem fieldNNN_toNat (op : Opcode) : (fieldNNN op).toNat = op.toNat % 4096 := by
  simp [fieldNNN, BitVec.extractLsb'_toNat]

theorem packNNN_toNat {f : Nat} (hf : f < 16) (nnn : Addr) : (packNNN f nnn).toNat = f * 4096 + nnn.toNat := by
  have := nnn.isLt
  simp [packNNN, BitVec.toNat_ofNat]; omega

theorem packXKK_toNat {f : Nat} (hf : f < 16) (x : RegIdx) (kk : Byte) :
    (packXKK f x kk).toNat = f * 4096 + x.val * 256 + kk.toNat := by
  have := kk.isLt
  simp [packXKK, BitVec.toNat_ofNat]; omega

theorem packXYN_toNat {f : Nat} (hf : f < 16) (x y : RegIdx) (n : Fin 16) :
    (packXYN f x y n).toNat = f * 4096 + x.val * 256 + y.val * 16 + n.val := by
  simp [packXYN, BitVec.toNat_ofNat]; omega

@[simp] theorem familyOf_packNNN {f : Nat} (hf : f < 16) (nnn : Addr) : familyOf (packNNN f nnn) = f := by
  have := nnn.isLt
  rw [familyOf_eq, packNNN_toNat hf]; omega

@[simp] theorem fieldNNN_packNNN {f : Nat} (hf : f < 16) (nnn : Addr) : fieldNNN (packNNN f nnn) = nnn := by
  have := nnn.isLt
  exact BitVec.eq_of_toNat_eq (by rw [fieldNNN_toNat, packNNN_toNat hf]; omega)

@[simp] theorem familyOf_packXKK {f : Nat} (hf : f < 16) (x : RegIdx) (kk : Byte) :
    familyOf (packXKK f x kk) = f := by
  have := kk.isLt
  rw [familyOf_eq, packXKK_toNat hf]; omega

@[simp] theorem fieldX_packXKK {f : Nat} (hf : f < 16) (x : RegIdx) (kk : Byte) :
    fieldX (packXKK f x kk) = x := by
  have := kk.isLt
  exact Fin.ext (by rw [fieldX_val, packXKK_toNat hf]; omega)

@[simp] theorem fieldKK_packXKK {f : Nat} (hf : f < 16) (x : RegIdx) (kk : Byte) :
    fieldKK (packXKK f x kk) = kk := by
  have := kk.isLt
  exact BitVec.eq_of_toNat_eq (by rw [fieldKK_toNat, packXKK_toNat hf]; omega)

@[simp] theorem familyOf_packXYN {f : Nat} (hf : f < 16) (x y : RegIdx) (n : Fin 16) :
    familyOf (packXYN f x y n) = f := by
  rw [familyOf_eq, packXYN_toNat hf]; omega

@[simp] theorem fieldX_packXYN {f : Nat} (hf : f < 16) (x y : RegIdx) (n : Fin 16) :
    fieldX (packXYN f x y n) = x := Fin.ext (by rw [fieldX_val, packXYN_toNat hf]; omega)

@[simp] theorem fieldY_packXYN {f : Nat} (hf : f < 16) (x y : RegIdx) (n : Fin 16) :
    fieldY (packXYN f x y n) = y := Fin.ext (by rw [fieldY_val, packXYN_toNat hf]; omega)

@[simp] theorem fieldN_packXYN {f : Nat} (hf : f < 16) (x y : RegIdx) (n : Fin 16) :
    fieldN (packXYN f x y n) = n := Fin.ext (by rw [fieldN_val, packXYN_toNat hf]; omega)

/-- Outside family 0x0 the two fixed opcodes play no part. -/
theorem decode_eq_decodeFamily {op : Opcode} (h : familyOf op ≠ 0) : decode op = decodeFamily op := by
  have h0 : op ≠ 0x00E0 := fun e => h (by rw [e]; decide)
  have h1 : op ≠ 0x00EE := fun e => h (by rw [e]; decide)
  rw [decode, if_neg h0, if_neg h1]

/-- The decoder's only verdict against an opcode is that it is illegal. -/
theorem decode_error {op : Opcode} {e : DecodeReject} (h : decode op = .error e) : e = .illegalOpcode op := by
  unfold decode at h
  split at h
  · cases h
  · split at h
    · cases h
    · simp only [decodeFamily, decodeAlu, decodeKey, decodeMisc] at h
      split at h <;> first | cases h; done | (cases h; rfl) | (split at h <;> first | (cases h; done) | (cases h; rfl))

/-- The bytes of an opcode, joined, are the opcode (rule R50). -/
theorem joinBytes_split (op : Opcode) : joinBytes (highByte op) (lowByte op) = op := by
  apply BitVec.eq_of_toNat_eq
  have := op.isLt
  simp [joinBytes, highByte, lowByte, BitVec.extractLsb'_toNat, Nat.shiftRight_eq_div_pow, BitVec.toNat_ofNat]
  omega

theorem highByte_join (hi lo : Byte) : highByte (joinBytes hi lo) = hi := by
  apply BitVec.eq_of_toNat_eq
  have := hi.isLt
  have := lo.isLt
  simp [joinBytes, highByte, BitVec.extractLsb'_toNat, Nat.shiftRight_eq_div_pow, BitVec.toNat_ofNat]
  omega

theorem lowByte_join (hi lo : Byte) : lowByte (joinBytes hi lo) = lo := by
  apply BitVec.eq_of_toNat_eq
  have := hi.isLt
  have := lo.isLt
  simp [joinBytes, lowByte, BitVec.extractLsb'_toNat, BitVec.toNat_ofNat]
  omega

end Sys2Proof
end

