-- ==== Sys2Proof/Laws/State.lean ====
section
/-! SUPPORT. Every field after every update of the state: one lemma each, true by `rfl`, so that no proof
unfolds a record update; and register reads after writes. -/

namespace Sys2Proof.Machine

@[simp] theorem State.setReg_pc (s : State) (r : RegIdx) (b : Byte) : (s.setReg r b).pc = s.pc := rfl
@[simp] theorem State.setReg_i (s : State) (r : RegIdx) (b : Byte) : (s.setReg r b).i = s.i := rfl
@[simp] theorem State.setReg_sp (s : State) (r : RegIdx) (b : Byte) : (s.setReg r b).sp = s.sp := rfl
@[simp] theorem State.setReg_stack (s : State) (r : RegIdx) (b : Byte) : (s.setReg r b).stack = s.stack := rfl
@[simp] theorem State.setReg_dt (s : State) (r : RegIdx) (b : Byte) : (s.setReg r b).dt = s.dt := rfl
@[simp] theorem State.setReg_st (s : State) (r : RegIdx) (b : Byte) : (s.setReg r b).st = s.st := rfl
@[simp] theorem State.setReg_mem (s : State) (r : RegIdx) (b : Byte) : (s.setReg r b).mem = s.mem := rfl
@[simp] theorem State.setReg_fb (s : State) (r : RegIdx) (b : Byte) : (s.setReg r b).fb = s.fb := rfl
@[simp] theorem State.setReg_dirty (s : State) (r : RegIdx) (b : Byte) : (s.setReg r b).dirty = s.dirty := rfl
@[simp] theorem State.setReg_key (s : State) (r : RegIdx) (b : Byte) : (s.setReg r b).key = s.key := rfl
@[simp] theorem State.setReg_draws (s : State) (r : RegIdx) (b : Byte) : (s.setReg r b).draws = s.draws := rfl
@[simp] theorem State.setReg_display (s : State) (r : RegIdx) (b : Byte) : (s.setReg r b).display = s.display := rfl

@[simp] theorem State.setRegs_pc (s : State) (f : RegIdx → Byte) : (s.setRegs f).pc = s.pc := rfl
@[simp] theorem State.setRegs_i (s : State) (f : RegIdx → Byte) : (s.setRegs f).i = s.i := rfl
@[simp] theorem State.setRegs_sp (s : State) (f : RegIdx → Byte) : (s.setRegs f).sp = s.sp := rfl
@[simp] theorem State.setRegs_stack (s : State) (f : RegIdx → Byte) : (s.setRegs f).stack = s.stack := rfl
@[simp] theorem State.setRegs_dt (s : State) (f : RegIdx → Byte) : (s.setRegs f).dt = s.dt := rfl
@[simp] theorem State.setRegs_st (s : State) (f : RegIdx → Byte) : (s.setRegs f).st = s.st := rfl
@[simp] theorem State.setRegs_mem (s : State) (f : RegIdx → Byte) : (s.setRegs f).mem = s.mem := rfl
@[simp] theorem State.setRegs_fb (s : State) (f : RegIdx → Byte) : (s.setRegs f).fb = s.fb := rfl
@[simp] theorem State.setRegs_dirty (s : State) (f : RegIdx → Byte) : (s.setRegs f).dirty = s.dirty := rfl
@[simp] theorem State.setRegs_key (s : State) (f : RegIdx → Byte) : (s.setRegs f).key = s.key := rfl
@[simp] theorem State.setRegs_draws (s : State) (f : RegIdx → Byte) : (s.setRegs f).draws = s.draws := rfl
@[simp] theorem State.setRegs_display (s : State) (f : RegIdx → Byte) : (s.setRegs f).display = s.display := rfl

@[simp] theorem State.setPc_v (s : State) (a : Addr) : (s.setPc a).v = s.v := rfl
@[simp] theorem State.setPc_pc (s : State) (a : Addr) : (s.setPc a).pc = a := rfl
@[simp] theorem State.setPc_i (s : State) (a : Addr) : (s.setPc a).i = s.i := rfl
@[simp] theorem State.setPc_sp (s : State) (a : Addr) : (s.setPc a).sp = s.sp := rfl
@[simp] theorem State.setPc_stack (s : State) (a : Addr) : (s.setPc a).stack = s.stack := rfl
@[simp] theorem State.setPc_dt (s : State) (a : Addr) : (s.setPc a).dt = s.dt := rfl
@[simp] theorem State.setPc_st (s : State) (a : Addr) : (s.setPc a).st = s.st := rfl
@[simp] theorem State.setPc_mem (s : State) (a : Addr) : (s.setPc a).mem = s.mem := rfl
@[simp] theorem State.setPc_fb (s : State) (a : Addr) : (s.setPc a).fb = s.fb := rfl
@[simp] theorem State.setPc_dirty (s : State) (a : Addr) : (s.setPc a).dirty = s.dirty := rfl
@[simp] theorem State.setPc_key (s : State) (a : Addr) : (s.setPc a).key = s.key := rfl
@[simp] theorem State.setPc_draws (s : State) (a : Addr) : (s.setPc a).draws = s.draws := rfl
@[simp] theorem State.setPc_reg (s : State) (a : Addr) (q : RegIdx) : (s.setPc a).reg q = s.reg q := rfl
@[simp] theorem State.setPc_display (s : State) (a : Addr) : (s.setPc a).display = s.display := rfl

@[simp] theorem State.setI_v (s : State) (a : Addr) : (s.setI a).v = s.v := rfl
@[simp] theorem State.setI_pc (s : State) (a : Addr) : (s.setI a).pc = s.pc := rfl
@[simp] theorem State.setI_i (s : State) (a : Addr) : (s.setI a).i = a := rfl
@[simp] theorem State.setI_sp (s : State) (a : Addr) : (s.setI a).sp = s.sp := rfl
@[simp] theorem State.setI_stack (s : State) (a : Addr) : (s.setI a).stack = s.stack := rfl
@[simp] theorem State.setI_dt (s : State) (a : Addr) : (s.setI a).dt = s.dt := rfl
@[simp] theorem State.setI_st (s : State) (a : Addr) : (s.setI a).st = s.st := rfl
@[simp] theorem State.setI_mem (s : State) (a : Addr) : (s.setI a).mem = s.mem := rfl
@[simp] theorem State.setI_fb (s : State) (a : Addr) : (s.setI a).fb = s.fb := rfl
@[simp] theorem State.setI_dirty (s : State) (a : Addr) : (s.setI a).dirty = s.dirty := rfl
@[simp] theorem State.setI_key (s : State) (a : Addr) : (s.setI a).key = s.key := rfl
@[simp] theorem State.setI_draws (s : State) (a : Addr) : (s.setI a).draws = s.draws := rfl
@[simp] theorem State.setI_reg (s : State) (a : Addr) (q : RegIdx) : (s.setI a).reg q = s.reg q := rfl
@[simp] theorem State.setI_display (s : State) (a : Addr) : (s.setI a).display = s.display := rfl

@[simp] theorem State.setDt_v (s : State) (b : Byte) : (s.setDt b).v = s.v := rfl
@[simp] theorem State.setDt_pc (s : State) (b : Byte) : (s.setDt b).pc = s.pc := rfl
@[simp] theorem State.setDt_i (s : State) (b : Byte) : (s.setDt b).i = s.i := rfl
@[simp] theorem State.setDt_sp (s : State) (b : Byte) : (s.setDt b).sp = s.sp := rfl
@[simp] theorem State.setDt_stack (s : State) (b : Byte) : (s.setDt b).stack = s.stack := rfl
@[simp] theorem State.setDt_dt (s : State) (b : Byte) : (s.setDt b).dt = b := rfl
@[simp] theorem State.setDt_st (s : State) (b : Byte) : (s.setDt b).st = s.st := rfl
@[simp] theorem State.setDt_mem (s : State) (b : Byte) : (s.setDt b).mem = s.mem := rfl
@[simp] theorem State.setDt_fb (s : State) (b : Byte) : (s.setDt b).fb = s.fb := rfl
@[simp] theorem State.setDt_dirty (s : State) (b : Byte) : (s.setDt b).dirty = s.dirty := rfl
@[simp] theorem State.setDt_key (s : State) (b : Byte) : (s.setDt b).key = s.key := rfl
@[simp] theorem State.setDt_draws (s : State) (b : Byte) : (s.setDt b).draws = s.draws := rfl
@[simp] theorem State.setDt_reg (s : State) (b : Byte) (q : RegIdx) : (s.setDt b).reg q = s.reg q := rfl
@[simp] theorem State.setDt_display (s : State) (b : Byte) : (s.setDt b).display = s.display := rfl

@[simp] theorem State.setSt_v (s : State) (b : Byte) : (s.setSt b).v = s.v := rfl
@[simp] theorem State.setSt_pc (s : State) (b : Byte) : (s.setSt b).pc = s.pc := rfl
@[simp] theorem State.setSt_i (s : State) (b : Byte) : (s.setSt b).i = s.i := rfl
@[simp] theorem State.setSt_sp (s : State) (b : Byte) : (s.setSt b).sp = s.sp := rfl
@[simp] theorem State.setSt_stack (s : State) (b : Byte) : (s.setSt b).stack = s.stack := rfl
@[simp] theorem State.setSt_dt (s : State) (b : Byte) : (s.setSt b).dt = s.dt := rfl
@[simp] theorem State.setSt_st (s : State) (b : Byte) : (s.setSt b).st = b := rfl
@[simp] theorem State.setSt_mem (s : State) (b : Byte) : (s.setSt b).mem = s.mem := rfl
@[simp] theorem State.setSt_fb (s : State) (b : Byte) : (s.setSt b).fb = s.fb := rfl
@[simp] theorem State.setSt_dirty (s : State) (b : Byte) : (s.setSt b).dirty = s.dirty := rfl
@[simp] theorem State.setSt_key (s : State) (b : Byte) : (s.setSt b).key = s.key := rfl
@[simp] theorem State.setSt_draws (s : State) (b : Byte) : (s.setSt b).draws = s.draws := rfl
@[simp] theorem State.setSt_reg (s : State) (b : Byte) (q : RegIdx) : (s.setSt b).reg q = s.reg q := rfl
@[simp] theorem State.setSt_display (s : State) (b : Byte) : (s.setSt b).display = s.display := rfl

@[simp] theorem State.setMem_v (s : State) (m : Memory) : (s.setMem m).v = s.v := rfl
@[simp] theorem State.setMem_pc (s : State) (m : Memory) : (s.setMem m).pc = s.pc := rfl
@[simp] theorem State.setMem_i (s : State) (m : Memory) : (s.setMem m).i = s.i := rfl
@[simp] theorem State.setMem_sp (s : State) (m : Memory) : (s.setMem m).sp = s.sp := rfl
@[simp] theorem State.setMem_stack (s : State) (m : Memory) : (s.setMem m).stack = s.stack := rfl
@[simp] theorem State.setMem_dt (s : State) (m : Memory) : (s.setMem m).dt = s.dt := rfl
@[simp] theorem State.setMem_st (s : State) (m : Memory) : (s.setMem m).st = s.st := rfl
@[simp] theorem State.setMem_mem (s : State) (m : Memory) : (s.setMem m).mem = m := rfl
@[simp] theorem State.setMem_fb (s : State) (m : Memory) : (s.setMem m).fb = s.fb := rfl
@[simp] theorem State.setMem_dirty (s : State) (m : Memory) : (s.setMem m).dirty = s.dirty := rfl
@[simp] theorem State.setMem_key (s : State) (m : Memory) : (s.setMem m).key = s.key := rfl
@[simp] theorem State.setMem_draws (s : State) (m : Memory) : (s.setMem m).draws = s.draws := rfl
@[simp] theorem State.setMem_reg (s : State) (m : Memory) (q : RegIdx) : (s.setMem m).reg q = s.reg q := rfl
@[simp] theorem State.setMem_display (s : State) (m : Memory) : (s.setMem m).display = s.display := rfl

@[simp] theorem State.setKeyLatch_v (s : State) (k : Option KeyCode) : (s.setKeyLatch k).v = s.v := rfl
@[simp] theorem State.setKeyLatch_pc (s : State) (k : Option KeyCode) : (s.setKeyLatch k).pc = s.pc := rfl
@[simp] theorem State.setKeyLatch_i (s : State) (k : Option KeyCode) : (s.setKeyLatch k).i = s.i := rfl
@[simp] theorem State.setKeyLatch_sp (s : State) (k : Option KeyCode) : (s.setKeyLatch k).sp = s.sp := rfl
@[simp] theorem State.setKeyLatch_stack (s : State) (k : Option KeyCode) : (s.setKeyLatch k).stack = s.stack := rfl
@[simp] theorem State.setKeyLatch_dt (s : State) (k : Option KeyCode) : (s.setKeyLatch k).dt = s.dt := rfl
@[simp] theorem State.setKeyLatch_st (s : State) (k : Option KeyCode) : (s.setKeyLatch k).st = s.st := rfl
@[simp] theorem State.setKeyLatch_mem (s : State) (k : Option KeyCode) : (s.setKeyLatch k).mem = s.mem := rfl
@[simp] theorem State.setKeyLatch_fb (s : State) (k : Option KeyCode) : (s.setKeyLatch k).fb = s.fb := rfl
@[simp] theorem State.setKeyLatch_dirty (s : State) (k : Option KeyCode) : (s.setKeyLatch k).dirty = s.dirty := rfl
@[simp] theorem State.setKeyLatch_key (s : State) (k : Option KeyCode) : (s.setKeyLatch k).key = k := rfl
@[simp] theorem State.setKeyLatch_draws (s : State) (k : Option KeyCode) : (s.setKeyLatch k).draws = s.draws := rfl
@[simp] theorem State.setKeyLatch_reg (s : State) (k : Option KeyCode) (q : RegIdx) : (s.setKeyLatch k).reg q = s.reg q := rfl
@[simp] theorem State.setKeyLatch_display (s : State) (k : Option KeyCode) : (s.setKeyLatch k).display = s.display := rfl

@[simp] theorem State.setDisplay_v (s : State) (d : Display) : (s.setDisplay d).v = s.v := rfl
@[simp] theorem State.setDisplay_pc (s : State) (d : Display) : (s.setDisplay d).pc = s.pc := rfl
@[simp] theorem State.setDisplay_i (s : State) (d : Display) : (s.setDisplay d).i = s.i := rfl
@[simp] theorem State.setDisplay_sp (s : State) (d : Display) : (s.setDisplay d).sp = s.sp := rfl
@[simp] theorem State.setDisplay_stack (s : State) (d : Display) : (s.setDisplay d).stack = s.stack := rfl
@[simp] theorem State.setDisplay_dt (s : State) (d : Display) : (s.setDisplay d).dt = s.dt := rfl
@[simp] theorem State.setDisplay_st (s : State) (d : Display) : (s.setDisplay d).st = s.st := rfl
@[simp] theorem State.setDisplay_mem (s : State) (d : Display) : (s.setDisplay d).mem = s.mem := rfl
@[simp] theorem State.setDisplay_fb (s : State) (d : Display) : (s.setDisplay d).fb = d.fb := rfl
@[simp] theorem State.setDisplay_dirty (s : State) (d : Display) : (s.setDisplay d).dirty = d.dirty := rfl
@[simp] theorem State.setDisplay_key (s : State) (d : Display) : (s.setDisplay d).key = s.key := rfl
@[simp] theorem State.setDisplay_draws (s : State) (d : Display) : (s.setDisplay d).draws = s.draws := rfl
@[simp] theorem State.setDisplay_reg (s : State) (d : Display) (q : RegIdx) : (s.setDisplay d).reg q = s.reg q := rfl

@[simp] theorem State.draw_v (s : State) : s.draw.2.v = s.v := rfl
@[simp] theorem State.draw_pc (s : State) : s.draw.2.pc = s.pc := rfl
@[simp] theorem State.draw_i (s : State) : s.draw.2.i = s.i := rfl
@[simp] theorem State.draw_sp (s : State) : s.draw.2.sp = s.sp := rfl
@[simp] theorem State.draw_stack (s : State) : s.draw.2.stack = s.stack := rfl
@[simp] theorem State.draw_dt (s : State) : s.draw.2.dt = s.dt := rfl
@[simp] theorem State.draw_st (s : State) : s.draw.2.st = s.st := rfl
@[simp] theorem State.draw_mem (s : State) : s.draw.2.mem = s.mem := rfl
@[simp] theorem State.draw_fb (s : State) : s.draw.2.fb = s.fb := rfl
@[simp] theorem State.draw_dirty (s : State) : s.draw.2.dirty = s.dirty := rfl
@[simp] theorem State.draw_key (s : State) : s.draw.2.key = s.key := rfl
@[simp] theorem State.draw_draws (s : State) : s.draw.2.draws = s.draws + 1 := rfl
@[simp] theorem State.draw_reg (s : State) (q : RegIdx) : s.draw.2.reg q = s.reg q := rfl
@[simp] theorem State.draw_byte (s : State) : s.draw.1 = Config.randomByte s.draws := rfl

@[simp] theorem State.display_fb (s : State) : s.display.fb = s.fb := rfl
@[simp] theorem State.display_dirty (s : State) : s.display.dirty = s.dirty := rfl
@[simp] theorem State.setDisplay_display (s : State) (d : Display) : (s.setDisplay d).display = d := rfl

/-- A register just written reads as the byte written. -/
@[simp] theorem State.setReg_reg_same (s : State) (r : RegIdx) (b : Byte) : (s.setReg r b).reg r = b := by
  simp [State.reg, State.setReg]

/-- Writing a register leaves the others alone. -/
theorem State.setReg_reg_ne (s : State) {r q : RegIdx} (b : Byte) (h : q ≠ r) :
    (s.setReg r b).reg q = s.reg q := by
  have : r.val ≠ q.val := fun e => h (Fin.ext e.symm)
  simp [State.reg, State.setReg, this]

/-- A register after a write to any register. -/
theorem State.setReg_reg (s : State) (r q : RegIdx) (b : Byte) :
    (s.setReg r b).reg q = if q = r then b else s.reg q := by
  split
  · next h => simp [h]
  · next h => exact s.setReg_reg_ne b h

@[simp] theorem State.setRegs_reg (s : State) (f : RegIdx → Byte) (q : RegIdx) : (s.setRegs f).reg q = f q := by
  simp [State.reg, State.setRegs]

/-- After flag and result are written, the destination holds the result. -/
@[simp] theorem State.setFlagThenReg_reg_dest (s : State) (f : Byte) (r : RegIdx) (b : Byte) :
    (s.setFlagThenReg f r b).reg r = b := by
  simp [State.setFlagThenReg]

/-- Where the destination is not VF, VF holds the flag. -/
theorem State.setFlagThenReg_reg_flag (s : State) (f : Byte) {r : RegIdx} (b : Byte) (h : r ≠ flagReg) :
    (s.setFlagThenReg f r b).reg flagReg = f := by
  simp [State.setFlagThenReg, State.setReg_reg, Ne.symm h]

/-- Every other register keeps its value. -/
theorem State.setFlagThenReg_reg_other (s : State) (f : Byte) {r q : RegIdx} (b : Byte) (h : q ≠ r)
    (hf : q ≠ flagReg) : (s.setFlagThenReg f r b).reg q = s.reg q := by
  simp [State.setFlagThenReg, State.setReg_reg, h, hf]

@[simp] theorem State.setFlagThenReg_pc (s : State) (f : Byte) (r : RegIdx) (b : Byte) : (s.setFlagThenReg f r b).pc = s.pc := rfl
@[simp] theorem State.setFlagThenReg_i (s : State) (f : Byte) (r : RegIdx) (b : Byte) : (s.setFlagThenReg f r b).i = s.i := rfl
@[simp] theorem State.setFlagThenReg_sp (s : State) (f : Byte) (r : RegIdx) (b : Byte) : (s.setFlagThenReg f r b).sp = s.sp := rfl
@[simp] theorem State.setFlagThenReg_stack (s : State) (f : Byte) (r : RegIdx) (b : Byte) : (s.setFlagThenReg f r b).stack = s.stack := rfl
@[simp] theorem State.setFlagThenReg_dt (s : State) (f : Byte) (r : RegIdx) (b : Byte) : (s.setFlagThenReg f r b).dt = s.dt := rfl
@[simp] theorem State.setFlagThenReg_st (s : State) (f : Byte) (r : RegIdx) (b : Byte) : (s.setFlagThenReg f r b).st = s.st := rfl
@[simp] theorem State.setFlagThenReg_mem (s : State) (f : Byte) (r : RegIdx) (b : Byte) : (s.setFlagThenReg f r b).mem = s.mem := rfl
@[simp] theorem State.setFlagThenReg_fb (s : State) (f : Byte) (r : RegIdx) (b : Byte) : (s.setFlagThenReg f r b).fb = s.fb := rfl
@[simp] theorem State.setFlagThenReg_dirty (s : State) (f : Byte) (r : RegIdx) (b : Byte) : (s.setFlagThenReg f r b).dirty = s.dirty := rfl
@[simp] theorem State.setFlagThenReg_key (s : State) (f : Byte) (r : RegIdx) (b : Byte) : (s.setFlagThenReg f r b).key = s.key := rfl
@[simp] theorem State.setFlagThenReg_draws (s : State) (f : Byte) (r : RegIdx) (b : Byte) : (s.setFlagThenReg f r b).draws = s.draws := rfl

/-- Under the hardware's key policy an instruction leaves the latch as it was (rule R216). -/
@[simp] theorem State.afterKeyRead_eq (s : State) : s.afterKeyRead = s := rfl

/-- Under the hardware's key policy the end of a step leaves the latch as it was (rules R106 and R216). -/
@[simp] theorem State.endOfStep_eq (s : State) : s.endOfStep = s := rfl

end Sys2Proof.Machine
end

