-- ==== Sys2Proof/Laws/Ops.lean ====
section
/-! SUPPORT. What each shared operation can do, said once: address arithmetic, outcomes, the skip, the call
stack and the operand forms. -/

namespace Sys2Proof.Machine

/-- A bounded add in range. -/
theorem addrAdd_of_le {a : Addr} {k : Nat} (h : a.toNat + k ≤ 0xFFF) :
    addrAdd a k = .ok (BitVec.ofNat 12 (a.toNat + k)) := if_pos h

/-- A bounded add out of range. -/
theorem addrAdd_of_gt {a : Addr} {k : Nat} (h : 0xFFF < a.toNat + k) :
    addrAdd a k = .error (.addressRange (a.toNat + k)) := if_neg (by omega)

/-- What a bounded add that succeeds says. -/
theorem addrAdd_ok {a b : Addr} {k : Nat} (h : addrAdd a k = .ok b) :
    a.toNat + k ≤ 0xFFF ∧ b.toNat = a.toNat + k := by
  unfold addrAdd at h
  split at h
  · next hle => cases h; exact ⟨hle, by simp; omega⟩
  · cases h

/-- What a bounded add that faults says. -/
theorem addrAdd_error {a : Addr} {k : Nat} {f : Fault} (h : addrAdd a k = .error f) :
    0xFFF < a.toNat + k ∧ f = .addressRange (a.toNat + k) := by
  unfold addrAdd at h
  split at h
  · cases h
  · next hgt => cases h; exact ⟨by omega, rfl⟩

@[simp] theorem orRaise_ok {α : Type} (a : α) (next : α → Result) : orRaise (.ok a) next = next a := rfl

@[simp] theorem orRaise_error {α : Type} (f : Fault) (next : α → Result) :
    orRaise (.error f) next = .fault f := rfl

/-- A computed value followed by a continuation answers a next state only through the value. -/
theorem orRaise_eq_next {α : Type} {r : Except Fault α} {next : α → Result} {t : State}
    (h : orRaise r next = .next t) : ∃ a, r = .ok a ∧ next a = .next t := by
  cases r with
  | ok a => exact ⟨a, rfl, h⟩
  | error f => cases h

/-- It faults by the computation or by the continuation. -/
theorem orRaise_eq_fault {α : Type} {r : Except Fault α} {next : α → Result} {f : Fault}
    (h : orRaise r next = .fault f) : r = .error f ∨ ∃ a, r = .ok a ∧ next a = .fault f := by
  cases r with
  | ok a => exact .inr ⟨a, rfl, h⟩
  | error g => cases h; exact .inl rfl

/-- It refuses only by the continuation. -/
theorem orRaise_eq_refused {α : Type} {r : Except Fault α} {next : α → Result} {q : Refusal}
    (h : orRaise r next = .refused q) : ∃ a, r = .ok a ∧ next a = .refused q := by
  cases r with
  | ok a => exact ⟨a, rfl, h⟩
  | error f => cases h

/-- A taken skip that stays in range. -/
theorem State.skip_of_le {s : State} (h : s.pc.toNat ≤ 0xFFD) :
    s.skip = .next (s.setPc (BitVec.ofNat 12 (s.pc.toNat + 2))) := by
  unfold State.skip
  rw [addrAdd_of_le (by omega)]
  rfl

/-- A taken skip that leaves the address space. -/
theorem State.skip_of_gt {s : State} (h : 0xFFD < s.pc.toNat) :
    s.skip = .fault (.addressRange (s.pc.toNat + 2)) := by
  unfold State.skip
  rw [addrAdd_of_gt (by omega)]
  rfl

/-- A conditional skip that answers a next state moves the pc by 2 or changes nothing. -/
theorem State.skipIf_eq_next {s t : State} {c : Bool} (h : s.skipIf c = .next t) :
    (c = true ∧ s.pc.toNat ≤ 0xFFD ∧ t = s.setPc (BitVec.ofNat 12 (s.pc.toNat + 2))) ∨ (c = false ∧ t = s) := by
  cases c with
  | false => cases h; exact .inr ⟨rfl, rfl⟩
  | true =>
    by_cases hr : s.pc.toNat ≤ 0xFFD
    · have : s.skip = .next t := h
      rw [State.skip_of_le hr] at this
      cases this
      exact .inl ⟨rfl, hr, rfl⟩
    · have : s.skip = .next t := h
      rw [State.skip_of_gt (by omega)] at this
      cases this

/-- A conditional skip never refuses. -/
theorem State.skipIf_ne_refused (s : State) (c : Bool) (q : Refusal) : s.skipIf c ≠ .refused q := by
  intro h
  cases c with
  | false => cases h
  | true =>
    obtain ⟨_, _, h⟩ := orRaise_eq_refused (show s.skip = .refused q from h)
    cases h

/-- A conditional skip faults only where it is taken from above 0xFFD. -/
theorem State.skipIf_eq_fault {s : State} {c : Bool} {f : Fault} (h : s.skipIf c = .fault f) :
    c = true ∧ 0xFFD < s.pc.toNat ∧ f = .addressRange (s.pc.toNat + 2) := by
  cases c with
  | false => cases h
  | true =>
    rcases orRaise_eq_fault (show s.skip = .fault f from h) with h | ⟨_, _, h⟩
    · obtain ⟨hgt, hf⟩ := addrAdd_error h
      exact ⟨rfl, by omega, hf⟩
    · cases h

/-- A push that succeeds: the slot at the old SP holds the address, SP is one higher, all else is as it
was. -/
theorem State.push_ok {s t : State} {a : Addr} (h : s.push a = .ok t) :
    ∃ hlt : s.sp.val < 16,
      t = { s with stack := s.stack.set s.sp.val a hlt, sp := ⟨s.sp.val + 1, by omega⟩ } := by
  unfold State.push at h
  split at h
  · next hlt => cases h; exact ⟨hlt, rfl⟩
  · cases h

/-- A push faults at SP = 16 only. -/
theorem State.push_error {s : State} {a : Addr} {f : Fault} (h : s.push a = .error f) :
    s.sp.val = 16 ∧ f = .stackOverflow := by
  unfold State.push at h
  split at h
  · cases h
  · next hge => cases h; exact ⟨by have := s.sp.isLt; omega, rfl⟩

/-- A pop that succeeds: SP is one lower, the address comes from the slot it then points at, all else is as
it was. -/
theorem State.pop_ok {s t : State} {a : Addr} (h : s.pop = .ok (a, t)) :
    ∃ _hpos : s.sp.val ≠ 0, a = s.stack[s.sp.val - 1]'(by omega) ∧
      t = { s with sp := ⟨s.sp.val - 1, by omega⟩ } := by
  unfold State.pop at h
  split at h
  · cases h
  · next hne => cases h; exact ⟨hne, rfl, rfl⟩

/-- A pop faults at SP = 0 only. -/
theorem State.pop_error {s : State} {f : Fault} (h : s.pop = .error f) :
    s.sp.val = 0 ∧ f = .stackUnderflow := by
  unfold State.pop at h
  split at h
  · next h0 => cases h; exact ⟨h0, rfl⟩
  · cases h

/-- The registers stored by Fx55, one by one. -/
theorem State.regBlock_getElem (s : State) (x j : RegIdx) (h : j.val < (s.regBlock x).length) :
    (s.regBlock x)[j.val] = s.reg j := by
  simp [State.regBlock, State.reg]

@[simp] theorem State.regBlock_length (s : State) (x : RegIdx) : (s.regBlock x).length = x.val + 1 := by
  simp [State.regBlock]

/-- A register after Fx65's load. -/
theorem State.loadBlock_reg (s : State) (x q : RegIdx) :
    (s.loadBlock x).reg q =
      if q.val ≤ x.val then s.mem.read (s.i + BitVec.ofNat 12 q.val) else s.reg q := by
  simp [State.loadBlock]

@[simp] theorem bcdDigits_length (b : Byte) : (bcdDigits b).length = 3 := rfl

/-- The glyph address of a digit. -/
theorem glyphAddress_of_le {b : Byte} (h : b.toNat ≤ 15) :
    glyphAddress b = .ok (BitVec.ofNat 12 (5 * b.toNat)) := if_pos h

/-- A value above 15 has none. -/
theorem glyphAddress_of_gt {b : Byte} (h : 15 < b.toNat) :
    glyphAddress b = .error (.unspecifiedGlyph b) := if_neg (by omega)

end Sys2Proof.Machine
end

