-- ==== Sys2Proof/Laws/Cycle.lean ====
section
/-! SUPPORT. What the phases of a step can do, said once. -/

namespace Sys2Proof.Machine

/-- Fetch reads two bytes big-endian where both are in memory. -/
theorem State.fetch_of_le {s : State} (h : s.pc.toNat ≤ 0xFFE) :
    s.fetch = .ok (joinBytes (s.mem.read s.pc) (s.mem.read (s.pc + 1))) := by
  have hpc : BitVec.ofNat 12 (s.pc.toNat + 1) = s.pc + 1 :=
    BitVec.eq_of_toNat_eq (by simp [BitVec.toNat_add])
  unfold State.fetch
  rw [addrAdd_of_le (by omega)]
  simp [hpc]

/-- Fetch at the last address faults. -/
theorem State.fetch_of_last {s : State} (h : s.pc.toNat = 0xFFF) :
    s.fetch = .error (.addressRange 0x1000) := by
  unfold State.fetch
  rw [addrAdd_of_gt (by omega)]
  simp [h]

/-- What a fetch that succeeds says. -/
theorem State.fetch_ok {s : State} {op : Opcode} (h : s.fetch = .ok op) :
    s.pc.toNat ≤ 0xFFE ∧ op = joinBytes (s.mem.read s.pc) (s.mem.read (s.pc + 1)) := by
  have := s.pc.isLt
  by_cases hp : s.pc.toNat = 0xFFF
  · rw [State.fetch_of_last hp] at h; cases h
  · rw [State.fetch_of_le (by omega)] at h; cases h; exact ⟨by omega, rfl⟩

/-- What a fetch that faults says. -/
theorem State.fetch_error {s : State} {f : Fault} (h : s.fetch = .error f) :
    s.pc.toNat = 0xFFF ∧ f = .addressRange 0x1000 := by
  have := s.pc.isLt
  by_cases hp : s.pc.toNat = 0xFFF
  · rw [State.fetch_of_last hp] at h; cases h; exact ⟨hp, rfl⟩
  · rw [State.fetch_of_le (by omega)] at h; cases h

/-- The advance in range. -/
theorem State.advance_of_le {s : State} (h : s.pc.toNat ≤ 0xFFD) : s.advance = .ok (s.setPc (s.pc + 2)) := by
  have hpc : BitVec.ofNat 12 (s.pc.toNat + 2) = s.pc + 2 :=
    BitVec.eq_of_toNat_eq (by simp [BitVec.toNat_add])
  unfold State.advance
  rw [addrAdd_of_le (by omega)]
  simp [hpc]

/-- The advance past the last address faults. -/
theorem State.advance_of_gt {s : State} (h : 0xFFD < s.pc.toNat) :
    s.advance = .error (.addressRange (s.pc.toNat + 2)) := by
  unfold State.advance
  rw [addrAdd_of_gt (by omega)]

/-- Under the hardware's key policy the end of a step adds nothing. -/
@[simp] theorem finishStep_eq (r : Result) : finishStep r = r := by cases r <;> rfl

/-- All four phases in one case split: where the first three pass, the step is `exec` of the decoded
instruction with the pc 2 further. -/
theorem step_cases (s : State) :
    (s.pc.toNat = 0xFFF ∧ step s = .fault (.addressRange 0x1000)) ∨
    (∃ op, s.fetch = .ok op ∧
      (((∀ i, decode op ≠ .ok i) ∧ step s = .fault (.decodeError op s.pc)) ∨
       ∃ i, decode op = .ok i ∧
        ((s.pc.toNat = 0xFFE ∧ step s = .fault (.addressRange 0x1000)) ∨
         (s.pc.toNat ≤ 0xFFD ∧ step s = exec i (s.setPc (s.pc + 2)))))) := by
  have hlt := s.pc.isLt
  unfold step State.prepare
  cases hf : s.fetch with
  | error f =>
    obtain ⟨hp, rfl⟩ := State.fetch_error hf
    exact .inl ⟨hp, rfl⟩
  | ok op =>
    refine .inr ⟨op, rfl, ?_⟩
    cases hd : decode op with
    | error e =>
      exact .inl ⟨(fun i h => nomatch h), by simp [State.decodeAt, hd]⟩
    | ok i =>
      refine .inr ⟨i, rfl, ?_⟩
      by_cases hp : s.pc.toNat ≤ 0xFFD
      · exact .inr ⟨hp, by simp [State.decodeAt, hd, State.advance_of_le hp]⟩
      · have := (State.fetch_ok hf).1
        have hpe : s.pc.toNat = 0xFFE := by omega
        exact .inl ⟨hpe, by simp [State.decodeAt, hd, State.advance_of_gt (by omega : 0xFFD < s.pc.toNat), hpe]⟩

/-- A step that answers a next state ran the instruction it fetched. -/
theorem step_eq_next {s t : State} (h : step s = .next t) :
    ∃ op i, s.fetch = .ok op ∧ decode op = .ok i ∧ s.pc.toNat ≤ 0xFFD ∧
      exec i (s.setPc (s.pc + 2)) = .next t := by
  rcases step_cases s with ⟨_, e⟩ | ⟨op, hf, ⟨_, e⟩ | ⟨i, hd, ⟨_, e⟩ | ⟨hp, e⟩⟩⟩
  · rw [e] at h; cases h
  · rw [e] at h; cases h
  · rw [e] at h; cases h
  · exact ⟨op, i, hf, hd, hp, e ▸ h⟩

/-- A step whose instruction is known. -/
theorem step_of_decode {s : State} {op : Opcode} {i : Instr} (hf : s.fetch = .ok op) (hd : decode op = .ok i)
    (hp : s.pc.toNat ≤ 0xFFD) : step s = exec i (s.setPc (s.pc + 2)) := by
  rcases step_cases s with ⟨h, _⟩ | ⟨op', hf', ⟨h, _⟩ | ⟨i', hd', ⟨h, _⟩ | ⟨_, e⟩⟩⟩
  · omega
  · rw [hf] at hf'; cases hf'; exact absurd hd (h i)
  · omega
  · rw [hf] at hf'; cases hf'; rw [hd] at hd'; cases hd'; exact e

end Sys2Proof.Machine
end

