-- ==== Sys2Proof/Laws/Display.lean ====
section
/-! SUPPORT. What the framebuffer primitives do to one pixel. -/

namespace Sys2Proof.Machine

@[simp] theorem Plane.get_blank (x : Fin 64) (y : Fin 32) : Plane.get Plane.blank x y = false := by
  simp [Plane.get, Plane.blank]

/-- One bit after a flip. -/
theorem Plane.get_flip (p : Plane) (x cx : Fin 64) (y cy : Fin 32) :
    Plane.get (Plane.flip p cx cy) x y = if x = cx ∧ y = cy then !Plane.get p x y else Plane.get p x y := by
  unfold Plane.get Plane.flip
  simp only [Vector.getElem_set, Fin.ext_iff]
  by_cases hy : cy.val = y.val
  · by_cases hx : x.val = cx.val <;> simp [hy, hx]
  · simp [hy, Ne.symm hy]

/-- One bit after a mark. -/
theorem Plane.get_mark (p : Plane) (x cx : Fin 64) (y cy : Fin 32) :
    Plane.get (Plane.mark p cx cy) x y = (decide (x = cx ∧ y = cy) || Plane.get p x y) := by
  unfold Plane.get Plane.mark
  simp only [Vector.getElem_set, Fin.ext_iff]
  by_cases hy : cy.val = y.val
  · by_cases hx : x.val = cx.val <;> simp [hy, hx]
  · simp [hy, Ne.symm hy]

@[simp] theorem Plane.get_union (p q : Plane) (x : Fin 64) (y : Fin 32) :
    Plane.get (Plane.union p q) x y = (Plane.get p x y || Plane.get q x y) := by
  simp [Plane.get, Plane.union]

/-- Two planes with the same bits are equal. -/
theorem Plane.ext_get {p q : Plane} (h : ∀ x y, Plane.get p x y = Plane.get q x y) : p = q := by
  apply Vector.ext
  intro j hj
  apply BitVec.eq_of_getLsbD_eq
  intro k hk
  exact h ⟨k, hk⟩ ⟨j, hj⟩

/-- A sprite byte's bit `7 - col` decides whether a column toggles. -/
theorem Display.drawBit_of_clear (b : Byte) (x y col : Nat) (acc : Display × Bool)
    (h : b.getLsbD (7 - col) = false) : Display.drawBit b x y acc col = acc := by
  simp [Display.drawBit, h]

theorem Display.drawBit_of_set (b : Byte) (x y col : Nat) (acc : Display × Bool)
    (h : b.getLsbD (7 - col) = true) :
    Display.drawBit b x y acc col =
      ((acc.1.toggle (x + col) y).1, acc.2 || (acc.1.toggle (x + col) y).2) := by
  simp [Display.drawBit, h]

/-- Rows that are drawn: the first row in range, then the rest. -/
theorem drawRows_succ_of_le {m : Memory} {base : Addr} {x y left row : Nat} {acc : Display × Bool}
    (h : base.toNat + row ≤ 0xFFF) :
    drawRows m base x y (left + 1) row acc =
      drawRows m base x y left (row + 1)
        (Display.drawByte (m.read (BitVec.ofNat 12 (base.toNat + row))) x (y + row) acc) := by
  simp [drawRows, addrAdd, h]

/-- The first row out of range is the fault. -/
theorem drawRows_succ_of_gt {m : Memory} {base : Addr} {x y left row : Nat} {acc : Display × Bool}
    (h : 0xFFF < base.toNat + row) :
    drawRows m base x y (left + 1) row acc = .error (.addressRange (base.toNat + row)) := by
  have : ¬ base.toNat + row ≤ 0xFFF := by omega
  simp [drawRows, addrAdd, this]

/-- Drawing succeeds exactly where every row's byte is in range. -/
theorem drawRows_ok_iff {m : Memory} {base : Addr} {x y left row : Nat} {acc : Display × Bool} :
    (∃ r, drawRows m base x y left row acc = .ok r) ↔ left = 0 ∨ base.toNat + row + left ≤ 0x1000 := by
  induction left generalizing row acc with
  | zero => simp [drawRows]
  | succ left ih =>
    by_cases h : base.toNat + row ≤ 0xFFF
    · rw [drawRows_succ_of_le h, ih]; omega
    · rw [drawRows_succ_of_gt (by omega)]; simp; omega

/-- A draw's only fault is the address just above memory, where the draw began in range. -/
theorem drawRows_error {m : Memory} {base : Addr} {x y left row : Nat} {acc : Display × Bool} {f : Fault}
    (hrow : base.toNat + row ≤ 0x1000) (h : drawRows m base x y left row acc = .error f) :
    f = .addressRange 0x1000 := by
  induction left generalizing row acc with
  | zero => cases h
  | succ left ih =>
    by_cases hr : base.toNat + row ≤ 0xFFF
    · rw [drawRows_succ_of_le hr] at h
      exact ih (by omega) h
    · rw [drawRows_succ_of_gt (by omega)] at h
      cases h
      congr 1
      omega

end Sys2Proof.Machine
end

