-- ==== Sys2Proof/Laws/Memory.lean ====
section
/-! SUPPORT. The laws of memory: read after write in every list of cells, and that every write keeps the
canonical form. -/

namespace Sys2Proof.Machine

theorem Memory.lookup_drop_same (m : Memory) (a : Nat) : (Memory.drop m a).lookup a = Config.unlisted a := by
  induction m with
  | nil => rfl
  | cons c m ih =>
    unfold Memory.drop at ih ⊢
    by_cases h : c.1 = a
    · simp [h, ih]
    · simp [h, Memory.lookup, ih]

theorem Memory.lookup_drop_ne (m : Memory) {a b : Nat} (h : b ≠ a) :
    (Memory.drop m a).lookup b = Memory.lookup m b := by
  induction m with
  | nil => rfl
  | cons c m ih =>
    unfold Memory.drop at ih ⊢
    by_cases hc : c.1 = a
    · have : c.1 ≠ b := fun e => h (e.symm.trans hc)
      simp [hc, Memory.lookup, ih]
      intro e; exact absurd e.symm h
    · simp [hc, Memory.lookup, ih]

theorem Memory.lookup_insertCell_same (m : Memory) (a : Nat) (b : Byte) (h : ∀ c ∈ m, c.1 ≠ a) :
    (Memory.insertCell (a, b) m).lookup a = b := by
  induction m with
  | nil => simp [Memory.insertCell, Memory.lookup]
  | cons c m ih =>
    have hc : c.1 ≠ a := h c (by simp)
    unfold Memory.insertCell
    split
    · simp [Memory.lookup]
    · simp [Memory.lookup, hc, ih fun d hd => h d (by simp [hd])]

theorem Memory.lookup_insertCell_ne (m : Memory) {a k : Nat} (b : Byte) (h : k ≠ a) :
    (Memory.insertCell (a, b) m).lookup k = Memory.lookup m k := by
  induction m with
  | nil => simp [Memory.insertCell, Memory.lookup, Ne.symm h]
  | cons c m ih =>
    unfold Memory.insertCell
    split
    · simp [Memory.lookup, Ne.symm h]
    · simp [Memory.lookup, ih]

theorem Memory.drop_free (m : Memory) (a : Nat) : ∀ c ∈ Memory.drop m a, c.1 ≠ a := by
  intro c hc
  simpa [Memory.drop] using (List.mem_filter.mp hc).2

/-- The byte at an address just written is the byte written, whatever cells the memory lists. -/
@[simp] theorem Memory.read_write_same (m : Memory) (a : Addr) (b : Byte) : (m.write a b).read a = b := by
  unfold Memory.write Memory.read
  by_cases h : b = Config.unlisted a.toNat
  · simp [← h, Memory.lookup_drop_same]
  · simp [h, Memory.lookup_insertCell_same _ _ _ (Memory.drop_free m a.toNat)]

/-- Writing one address leaves every other address as it was. -/
theorem Memory.read_write_ne (m : Memory) {a c : Addr} (b : Byte) (h : c ≠ a) :
    (m.write a b).read c = m.read c := by
  have hn : c.toNat ≠ a.toNat := fun e => h (BitVec.eq_of_toNat_eq e)
  unfold Memory.write Memory.read
  split
  · exact Memory.lookup_drop_ne m hn
  · rw [Memory.lookup_insertCell_ne _ _ hn, Memory.lookup_drop_ne m hn]

/-- One byte of memory after one write. -/
theorem Memory.read_write (m : Memory) (a c : Addr) (b : Byte) :
    (m.write a b).read c = if c = a then b else m.read c := by
  split
  · next h => simp [h]
  · next h => exact m.read_write_ne b h

theorem Memory.mem_insertCell (c d : Host.Cell) (m : Memory) :
    d ∈ Memory.insertCell c m ↔ d = c ∨ d ∈ m := by
  induction m with
  | nil => simp [Memory.insertCell]
  | cons e m ih =>
    unfold Memory.insertCell
    split
    · simp
    · simp [ih]; tauto

theorem Memory.insertCell_rising (c : Host.Cell) (m : Memory) (hm : m.Pairwise fun d e => d.1 < e.1)
    (hc : ∀ d ∈ m, d.1 ≠ c.1) : (Memory.insertCell c m).Pairwise fun d e => d.1 < e.1 := by
  induction m with
  | nil => simp [Memory.insertCell]
  | cons e m ih =>
    have he := List.pairwise_cons.mp hm
    unfold Memory.insertCell
    split
    · next h =>
      refine List.pairwise_cons.mpr ⟨fun d hd => ?_, hm⟩
      rcases List.mem_cons.mp hd with rfl | hd
      · exact h
      · exact Nat.lt_trans h (he.1 d hd)
    · next h =>
      refine List.pairwise_cons.mpr ⟨fun d hd => ?_, ih he.2 fun d hd => hc d (by simp [hd])⟩
      rcases (Memory.mem_insertCell c d m).mp hd with rfl | hd
      · have := hc e (by simp); omega
      · exact he.1 d hd

theorem Memory.drop_wf {m : Memory} (h : m.wf) (a : Nat) : (Memory.drop m a).wf :=
  ⟨h.1.filter _, fun c hc => h.2 c (List.mem_filter.mp hc).1⟩

/-- A write keeps the canonical form. -/
theorem Memory.write_wf {m : Memory} (h : m.wf) (a : Addr) (b : Byte) : (m.write a b).wf := by
  have hd := Memory.drop_wf h a.toNat
  unfold Memory.write
  by_cases hb : b = Config.unlisted a.toNat
  · rw [if_pos hb]; exact hd
  · rw [if_neg hb]
    refine ⟨Memory.insertCell_rising _ _ hd.1 (Memory.drop_free m a.toNat), fun c hc => ?_⟩
    rcases (Memory.mem_insertCell _ c _).mp hc with rfl | hc
    · exact ⟨a.isLt, hb⟩
    · exact hd.2 c hc

/-- A block of writes keeps the canonical form. -/
theorem Memory.writeBlock_wf {m : Memory} (h : m.wf) (a : Addr) (bs : List Byte) : (m.writeBlock a bs).wf := by
  induction bs generalizing m a with
  | nil => exact h
  | cons b bs ih => exact ih (Memory.write_wf h a b) (a + 1)

/-- A block of writes leaves every address outside it as it was. -/
theorem Memory.read_writeBlock_outside (m : Memory) (a c : Addr) (bs : List Byte)
    (hfit : a.toNat + bs.length ≤ 4096) (h : c.toNat < a.toNat ∨ a.toNat + bs.length ≤ c.toNat) :
    (m.writeBlock a bs).read c = m.read c := by
  induction bs generalizing m a with
  | nil => rfl
  | cons b bs ih =>
    simp only [List.length_cons] at hfit h
    have hne : c ≠ a := by rintro rfl; omega
    rw [Memory.writeBlock]
    by_cases hb : bs = []
    · subst hb; simp [Memory.writeBlock, m.read_write_ne b hne]
    · have hl : 0 < bs.length := List.length_pos_of_ne_nil hb
      have ha : (a + 1).toNat = a.toNat + 1 := by simp [BitVec.toNat_add]; omega
      rw [ih _ _ (by omega) (by omega), m.read_write_ne b hne]

/-- A block of writes puts its bytes at ascending addresses. -/
theorem Memory.read_writeBlock_inside (m : Memory) (a c : Addr) (bs : List Byte) (j : Nat)
    (hfit : a.toNat + bs.length ≤ 4096) (hj : j < bs.length) (hc : c.toNat = a.toNat + j) :
    (m.writeBlock a bs).read c = bs[j] := by
  induction bs generalizing m a j with
  | nil => simp at hj
  | cons b bs ih =>
    simp only [List.length_cons] at hfit hj
    rw [Memory.writeBlock]
    cases j with
    | zero =>
      have hca : c = a := BitVec.eq_of_toNat_eq (by omega)
      subst hca
      by_cases hb : bs = []
      · subst hb; simp [Memory.writeBlock]
      · have hl : 0 < bs.length := List.length_pos_of_ne_nil hb
        have ha : (c + 1).toNat = c.toNat + 1 := by simp [BitVec.toNat_add]; omega
        rw [Memory.read_writeBlock_outside _ _ _ _ (by omega) (by omega)]
        simp
    | succ j =>
      have ha : (a + 1).toNat = a.toNat + 1 := by simp [BitVec.toNat_add]; omega
      simpa using ih (m.write a b) (a + 1) j (by omega) (by omega) (by omega)

/-- Reset memory is in canonical form. -/
theorem State.reset_mem_wf : State.reset.mem.wf := by decide

end Sys2Proof.Machine
end

