-- ==== Sys2Proof/Laws/PerInstr.lean ====
section
/-! SUPPORT. The fixed bits of every instruction's opcode, constructor by constructor: the pattern column of
table T-OPCODES (spec/30_encoding.md rule R76). -/

namespace Sys2Proof

/-- The bits of the encoding that are no operand field are the row's pattern (rule R76). -/
def Laws.FixedBits.Statement (i : Instr) : Prop :=
  let op := encode i
  match i with
  | .cls => op = 0x00E0
  | .ret => op = 0x00EE
  | .sys _ => familyOf op = 0x0
  | .jp _ => familyOf op = 0x1
  | .call _ => familyOf op = 0x2
  | .seImm _ _ => familyOf op = 0x3
  | .sneImm _ _ => familyOf op = 0x4
  | .seReg _ _ => familyOf op = 0x5 ∧ fieldN op = 0x0
  | .ldImm _ _ => familyOf op = 0x6
  | .addImm _ _ => familyOf op = 0x7
  | .ldReg _ _ => familyOf op = 0x8 ∧ fieldN op = 0x0
  | .orReg _ _ => familyOf op = 0x8 ∧ fieldN op = 0x1
  | .andReg _ _ => familyOf op = 0x8 ∧ fieldN op = 0x2
  | .xorReg _ _ => familyOf op = 0x8 ∧ fieldN op = 0x3
  | .addReg _ _ => familyOf op = 0x8 ∧ fieldN op = 0x4
  | .subReg _ _ => familyOf op = 0x8 ∧ fieldN op = 0x5
  | .shr _ _ => familyOf op = 0x8 ∧ fieldN op = 0x6
  | .subnReg _ _ => familyOf op = 0x8 ∧ fieldN op = 0x7
  | .shl _ _ => familyOf op = 0x8 ∧ fieldN op = 0xE
  | .sneReg _ _ => familyOf op = 0x9 ∧ fieldN op = 0x0
  | .ldI _ => familyOf op = 0xA
  | .jpV0 _ => familyOf op = 0xB
  | .rnd _ _ => familyOf op = 0xC
  | .drw _ _ _ => familyOf op = 0xD
  | .skp _ => familyOf op = 0xE ∧ fieldKK op = 0x9E
  | .sknp _ => familyOf op = 0xE ∧ fieldKK op = 0xA1
  | .ldVxDt _ => familyOf op = 0xF ∧ fieldKK op = 0x07
  | .ldVxK _ => familyOf op = 0xF ∧ fieldKK op = 0x0A
  | .ldDtVx _ => familyOf op = 0xF ∧ fieldKK op = 0x15
  | .ldStVx _ => familyOf op = 0xF ∧ fieldKK op = 0x18
  | .addI _ => familyOf op = 0xF ∧ fieldKK op = 0x1E
  | .ldF _ => familyOf op = 0xF ∧ fieldKK op = 0x29
  | .ldB _ => familyOf op = 0xF ∧ fieldKK op = 0x33
  | .stRegs _ => familyOf op = 0xF ∧ fieldKK op = 0x55
  | .ldRegs _ => familyOf op = 0xF ∧ fieldKK op = 0x65

theorem Laws.FixedBits.cls : Laws.FixedBits.Statement .cls := rfl

theorem Laws.FixedBits.ret : Laws.FixedBits.Statement .ret := rfl

theorem Laws.FixedBits.sys (nnn : Addr) : Laws.FixedBits.Statement (.sys nnn) :=
  familyOf_packNNN (by decide) nnn

theorem Laws.FixedBits.jp (nnn : Addr) : Laws.FixedBits.Statement (.jp nnn) :=
  familyOf_packNNN (by decide) nnn

theorem Laws.FixedBits.call (nnn : Addr) : Laws.FixedBits.Statement (.call nnn) :=
  familyOf_packNNN (by decide) nnn

theorem Laws.FixedBits.seImm (x : RegIdx) (kk : Byte) : Laws.FixedBits.Statement (.seImm x kk) :=
  familyOf_packXKK (by decide) x kk

theorem Laws.FixedBits.sneImm (x : RegIdx) (kk : Byte) : Laws.FixedBits.Statement (.sneImm x kk) :=
  familyOf_packXKK (by decide) x kk

theorem Laws.FixedBits.seReg (x y : RegIdx) : Laws.FixedBits.Statement (.seReg x y) :=
  ⟨familyOf_packXYN (by decide) x y _, fieldN_packXYN (by decide) x y _⟩

theorem Laws.FixedBits.ldImm (x : RegIdx) (kk : Byte) : Laws.FixedBits.Statement (.ldImm x kk) :=
  familyOf_packXKK (by decide) x kk

theorem Laws.FixedBits.addImm (x : RegIdx) (kk : Byte) : Laws.FixedBits.Statement (.addImm x kk) :=
  familyOf_packXKK (by decide) x kk

theorem Laws.FixedBits.ldReg (x y : RegIdx) : Laws.FixedBits.Statement (.ldReg x y) :=
  ⟨familyOf_packXYN (by decide) x y _, fieldN_packXYN (by decide) x y _⟩

theorem Laws.FixedBits.orReg (x y : RegIdx) : Laws.FixedBits.Statement (.orReg x y) :=
  ⟨familyOf_packXYN (by decide) x y _, fieldN_packXYN (by decide) x y _⟩

theorem Laws.FixedBits.andReg (x y : RegIdx) : Laws.FixedBits.Statement (.andReg x y) :=
  ⟨familyOf_packXYN (by decide) x y _, fieldN_packXYN (by decide) x y _⟩

theorem Laws.FixedBits.xorReg (x y : RegIdx) : Laws.FixedBits.Statement (.xorReg x y) :=
  ⟨familyOf_packXYN (by decide) x y _, fieldN_packXYN (by decide) x y _⟩

theorem Laws.FixedBits.addReg (x y : RegIdx) : Laws.FixedBits.Statement (.addReg x y) :=
  ⟨familyOf_packXYN (by decide) x y _, fieldN_packXYN (by decide) x y _⟩

theorem Laws.FixedBits.subReg (x y : RegIdx) : Laws.FixedBits.Statement (.subReg x y) :=
  ⟨familyOf_packXYN (by decide) x y _, fieldN_packXYN (by decide) x y _⟩

theorem Laws.FixedBits.shr (x y : RegIdx) : Laws.FixedBits.Statement (.shr x y) :=
  ⟨familyOf_packXYN (by decide) x y _, fieldN_packXYN (by decide) x y _⟩

theorem Laws.FixedBits.subnReg (x y : RegIdx) : Laws.FixedBits.Statement (.subnReg x y) :=
  ⟨familyOf_packXYN (by decide) x y _, fieldN_packXYN (by decide) x y _⟩

theorem Laws.FixedBits.shl (x y : RegIdx) : Laws.FixedBits.Statement (.shl x y) :=
  ⟨familyOf_packXYN (by decide) x y _, fieldN_packXYN (by decide) x y _⟩

theorem Laws.FixedBits.sneReg (x y : RegIdx) : Laws.FixedBits.Statement (.sneReg x y) :=
  ⟨familyOf_packXYN (by decide) x y _, fieldN_packXYN (by decide) x y _⟩

theorem Laws.FixedBits.ldI (nnn : Addr) : Laws.FixedBits.Statement (.ldI nnn) :=
  familyOf_packNNN (by decide) nnn

theorem Laws.FixedBits.jpV0 (nnn : Addr) : Laws.FixedBits.Statement (.jpV0 nnn) :=
  familyOf_packNNN (by decide) nnn

theorem Laws.FixedBits.rnd (x : RegIdx) (kk : Byte) : Laws.FixedBits.Statement (.rnd x kk) :=
  familyOf_packXKK (by decide) x kk

theorem Laws.FixedBits.drw (x y : RegIdx) (n : Fin 16) : Laws.FixedBits.Statement (.drw x y n) :=
  familyOf_packXYN (by decide) x y n

theorem Laws.FixedBits.skp (x : RegIdx) : Laws.FixedBits.Statement (.skp x) :=
  ⟨familyOf_packXKK (by decide) x _, fieldKK_packXKK (by decide) x _⟩

theorem Laws.FixedBits.sknp (x : RegIdx) : Laws.FixedBits.Statement (.sknp x) :=
  ⟨familyOf_packXKK (by decide) x _, fieldKK_packXKK (by decide) x _⟩

theorem Laws.FixedBits.ldVxDt (x : RegIdx) : Laws.FixedBits.Statement (.ldVxDt x) :=
  ⟨familyOf_packXKK (by decide) x _, fieldKK_packXKK (by decide) x _⟩

theorem Laws.FixedBits.ldVxK (x : RegIdx) : Laws.FixedBits.Statement (.ldVxK x) :=
  ⟨familyOf_packXKK (by decide) x _, fieldKK_packXKK (by decide) x _⟩

theorem Laws.FixedBits.ldDtVx (x : RegIdx) : Laws.FixedBits.Statement (.ldDtVx x) :=
  ⟨familyOf_packXKK (by decide) x _, fieldKK_packXKK (by decide) x _⟩

theorem Laws.FixedBits.ldStVx (x : RegIdx) : Laws.FixedBits.Statement (.ldStVx x) :=
  ⟨familyOf_packXKK (by decide) x _, fieldKK_packXKK (by decide) x _⟩

theorem Laws.FixedBits.addI (x : RegIdx) : Laws.FixedBits.Statement (.addI x) :=
  ⟨familyOf_packXKK (by decide) x _, fieldKK_packXKK (by decide) x _⟩

theorem Laws.FixedBits.ldF (x : RegIdx) : Laws.FixedBits.Statement (.ldF x) :=
  ⟨familyOf_packXKK (by decide) x _, fieldKK_packXKK (by decide) x _⟩

theorem Laws.FixedBits.ldB (x : RegIdx) : Laws.FixedBits.Statement (.ldB x) :=
  ⟨familyOf_packXKK (by decide) x _, fieldKK_packXKK (by decide) x _⟩

theorem Laws.FixedBits.stRegs (x : RegIdx) : Laws.FixedBits.Statement (.stRegs x) :=
  ⟨familyOf_packXKK (by decide) x _, fieldKK_packXKK (by decide) x _⟩

theorem Laws.FixedBits.ldRegs (x : RegIdx) : Laws.FixedBits.Statement (.ldRegs x) :=
  ⟨familyOf_packXKK (by decide) x _, fieldKK_packXKK (by decide) x _⟩

end Sys2Proof
end

