-- ==== Sys2Proof/Laws/Run.lean ====
section
/-! SUPPORT. Runs taken apart: one operation at either end, and a run cut in two. -/

namespace Sys2Proof.Machine

@[simp] theorem runOps_nil (s : State) : runOps s [] = .next s := rfl

@[simp] theorem thenOp_next (s : State) (op : HostOp) : thenOp (.next s) op = applyOp s op := rfl

@[simp] theorem thenOp_fault (f : Fault) (op : HostOp) : thenOp (.fault f) op = .fault f := rfl

@[simp] theorem thenOp_refused (q : Refusal) (op : HostOp) : thenOp (.refused q) op = .refused q := rfl

@[simp] theorem runFor_zero (sched : Schedule) (s : State) : runFor sched s 0 = .next s := rfl

@[simp] theorem runFor_succ (sched : Schedule) (s : State) (n : Nat) :
    runFor sched s (n + 1) = thenOp (runFor sched s n) (sched n) := rfl

@[simp] theorem firstOps_zero (sched : Schedule) : sched.firstOps 0 = [] := rfl

theorem firstOps_succ (sched : Schedule) (n : Nat) :
    sched.firstOps (n + 1) = sched.firstOps n ++ [sched n] := by
  simp [Schedule.firstOps, List.range_succ]

/-- One more operation has a next state exactly where the run so far has one and the operation takes it
there. -/
theorem thenOp_eq_next {r : Result} {op : HostOp} {t : State} :
    thenOp r op = .next t ↔ ∃ s, r = .next s ∧ applyOp s op = .next t := by
  cases r with
  | next s => exact ⟨fun h => ⟨s, rfl, h⟩, fun ⟨_, e, h⟩ => by cases e; exact h⟩
  | fault f => exact ⟨nofun, nofun⟩
  | refused q => exact ⟨nofun, nofun⟩

/-- A run with one more operation at its end. -/
theorem runOps_concat (ops : List HostOp) (op : HostOp) (s : State) :
    runOps s (ops ++ [op]) = thenOp (runOps s ops) op := by
  induction ops generalizing s with
  | nil =>
    show (match applyOp s op with
      | .next t => Host.Outcome.next t
      | .fault f => raise f
      | .refused q => .refused q) = applyOp s op
    cases applyOp s op <;> rfl
  | cons o ops ih =>
    simp only [List.cons_append, runOps]
    cases applyOp s o with
    | next t => exact ih t
    | fault f => rfl
    | refused q => rfl

end Sys2Proof.Machine
end

