-- ==== Sys2Proof/Laws/Sprite.lean ====
section
/-! SUPPORT. What drawing a sprite does, said once: it toggles a list of pixels without repeats, so each of
them is flipped once and dirty, and the flag says whether one of them was set. -/

namespace Sys2Proof.Machine

/-- One toggle of a fold over pixels. -/
def toggleCell (acc : Display × Bool) (p : Fin 64 × Fin 32) : Display × Bool :=
  ({ fb := Plane.flip acc.1.fb p.1 p.2, dirty := Plane.mark acc.1.dirty p.1 p.2 },
    acc.2 || Plane.get acc.1.fb p.1 p.2)

/-- The pixels a sprite byte toggles. -/
def byteCells (b : Byte) (x y : Nat) : List (Fin 64 × Fin 32) :=
  ((List.range 8).filter fun col => b.getLsbD (7 - col)).map fun col => (wrapX (x + col), wrapY y)

/-- The pixels that `left` rows from `row` on toggle. -/
def rowCells (m : Memory) (base : Addr) (x y : Nat) : (left row : Nat) → List (Fin 64 × Fin 32)
  | 0, _ => []
  | left + 1, row =>
    byteCells (m.read (BitVec.ofNat 12 (base.toNat + row))) x (y + row) ++ rowCells m base x y left (row + 1)

theorem drawByte_eq_foldl (b : Byte) (x y : Nat) (acc : Display × Bool) :
    Display.drawByte b x y acc = (byteCells b x y).foldl toggleCell acc := by
  simp only [Display.drawByte, byteCells, List.foldl_map, List.foldl_filter]
  rfl

/-- A draw that succeeds toggles its pixels in order. -/
theorem drawRows_eq_foldl {m : Memory} {base : Addr} {x y left row : Nat} {acc r : Display × Bool}
    (h : drawRows m base x y left row acc = .ok r) :
    r = (rowCells m base x y left row).foldl toggleCell acc := by
  induction left generalizing row acc with
  | zero => cases h; rfl
  | succ left ih =>
    by_cases hr : base.toNat + row ≤ 0xFFF
    · rw [drawRows_succ_of_le hr] at h
      rw [ih h, drawByte_eq_foldl, rowCells, List.foldl_append]
    · rw [drawRows_succ_of_gt (by omega)] at h; cases h

theorem mem_byteCells {b : Byte} {x y : Nat} {p : Fin 64 × Fin 32} :
    p ∈ byteCells b x y ↔ ∃ col, col < 8 ∧ b.getLsbD (7 - col) = true ∧ p = (wrapX (x + col), wrapY y) := by
  simp only [byteCells, List.mem_map, List.mem_filter, List.mem_range]
  constructor
  · rintro ⟨col, ⟨h, hb⟩, rfl⟩; exact ⟨col, h, hb, rfl⟩
  · rintro ⟨col, h, hb, rfl⟩; exact ⟨col, ⟨h, hb⟩, rfl⟩

/-- The pixels of a sprite: one for each 1 bit of each row. -/
theorem mem_rowCells {m : Memory} {base : Addr} {x y left row : Nat} {p : Fin 64 × Fin 32} :
    p ∈ rowCells m base x y left row ↔ ∃ r col, row ≤ r ∧ r < row + left ∧ col < 8 ∧
      (m.read (BitVec.ofNat 12 (base.toNat + r))).getLsbD (7 - col) = true ∧
      p = (wrapX (x + col), wrapY (y + r)) := by
  induction left generalizing row with
  | zero => simp [rowCells]; omega
  | succ left ih =>
    rw [rowCells, List.mem_append, mem_byteCells, ih]
    constructor
    · rintro (⟨col, h, hb, rfl⟩ | ⟨r, col, h0, h1, h, hb, rfl⟩)
      · exact ⟨row, col, by omega, by omega, h, hb, rfl⟩
      · exact ⟨r, col, by omega, by omega, h, hb, rfl⟩
    · rintro ⟨r, col, h0, h1, h, hb, rfl⟩
      by_cases e : r = row
      · subst e; exact .inl ⟨col, h, hb, rfl⟩
      · exact .inr ⟨r, col, by omega, by omega, h, hb, rfl⟩

theorem byteCells_nodup (b : Byte) (x y : Nat) : (byteCells b x y).Nodup := by
  refine (List.nodup_map_iff_inj_on (List.Nodup.filter _ List.nodup_range)).mpr ?_
  intro a ha c hc h
  have ha := List.mem_range.mp (List.mem_filter.mp ha).1
  have hc := List.mem_range.mp (List.mem_filter.mp hc).1
  have h : (x + a) % 64 = (x + c) % 64 := congrArg (fun p : Fin 64 × Fin 32 => p.1.val) h
  omega

/-- No pixel is toggled twice by one draw: 8 columns and at most 32 rows do not overlap themselves. -/
theorem rowCells_nodup (m : Memory) (base : Addr) (x y left row : Nat) (h : left ≤ 32) :
    (rowCells m base x y left row).Nodup := by
  induction left generalizing row with
  | zero => exact List.nodup_nil
  | succ left ih =>
    rw [rowCells, List.nodup_append]
    refine ⟨byteCells_nodup _ _ _, ih (row + 1) (by omega), ?_⟩
    intro p hp q hq e
    obtain ⟨col, _, _, rfl⟩ := mem_byteCells.mp hp
    obtain ⟨r, col', h0, h1, _, _, rfl⟩ := mem_rowCells.mp hq
    have e : (y + row) % 32 = (y + r) % 32 := congrArg (fun p : Fin 64 × Fin 32 => p.2.val) e
    omega

/-- A list of different pixels, toggled: each is flipped once, each is dirty, the rest is as it was, and the
flag says whether one was set. -/
theorem foldl_toggleCell (l : List (Fin 64 × Fin 32)) (hl : l.Nodup) (acc : Display × Bool) :
    (∀ x y, Plane.get (l.foldl toggleCell acc).1.fb x y =
      if (x, y) ∈ l then !Plane.get acc.1.fb x y else Plane.get acc.1.fb x y) ∧
    (∀ x y, Plane.get (l.foldl toggleCell acc).1.dirty x y =
      (decide ((x, y) ∈ l) || Plane.get acc.1.dirty x y)) ∧
    ((l.foldl toggleCell acc).2 = true ↔ acc.2 = true ∨ ∃ p ∈ l, Plane.get acc.1.fb p.1 p.2 = true) := by
  induction l generalizing acc with
  | nil => simp
  | cons p l ih =>
    obtain ⟨hp, hl⟩ := List.nodup_cons.mp hl
    obtain ⟨h1, h2, h3⟩ := ih hl (toggleCell acc p)
    rw [List.foldl_cons]
    refine ⟨fun x y => ?_, fun x y => ?_, ?_⟩
    · rw [h1]
      by_cases e : (x, y) = p
      · subst e; simp [hp, toggleCell, Plane.get_flip]
      · have : ¬(x = p.1 ∧ y = p.2) := fun h => e (Prod.ext h.1 h.2)
        simp [e, toggleCell, Plane.get_flip, this]
    · rw [h2]
      by_cases e : (x, y) = p
      · subst e; simp [toggleCell, Plane.get_mark]
      · have : ¬(x = p.1 ∧ y = p.2) := fun h => e (Prod.ext h.1 h.2)
        simp [e, toggleCell, Plane.get_mark, this]
    · have hsame : ∀ q ∈ l, Plane.get (toggleCell acc p).1.fb q.1 q.2 = Plane.get acc.1.fb q.1 q.2 := by
        intro q hq
        have : ¬(q.1 = p.1 ∧ q.2 = p.2) := fun h => hp (Prod.ext h.1 h.2 ▸ hq)
        simp [toggleCell, Plane.get_flip, this]
      rw [h3]
      simp only [toggleCell, Bool.or_eq_true, List.mem_cons, exists_eq_or_imp, or_assoc]
      constructor
      · rintro (h | h | ⟨q, hq, h⟩)
        · exact .inl h
        · exact .inr (.inl h)
        · exact .inr (.inr ⟨q, hq, (hsame q hq) ▸ h⟩)
      · rintro (h | h | ⟨q, hq, h⟩)
        · exact .inl h
        · exact .inr (.inl h)
        · exact .inr (.inr ⟨q, hq, (hsame q hq).symm ▸ h⟩)

/-- What a draw that succeeds does to pixels, dirty set and flag. -/
theorem drawRows_ok {m : Memory} {base : Addr} {x y left : Nat} {d : Display} {r : Display × Bool}
    (hl : left ≤ 32) (h : drawRows m base x y left 0 (d, false) = .ok r) :
    (∀ cx cy, Plane.get r.1.fb cx cy =
      if (cx, cy) ∈ rowCells m base x y left 0 then !Plane.get d.fb cx cy else Plane.get d.fb cx cy) ∧
    (∀ cx cy, Plane.get r.1.dirty cx cy =
      (decide ((cx, cy) ∈ rowCells m base x y left 0) || Plane.get d.dirty cx cy)) ∧
    (r.2 = true ↔ ∃ p ∈ rowCells m base x y left 0, Plane.get d.fb p.1 p.2 = true) := by
  rw [drawRows_eq_foldl h]
  have := foldl_toggleCell _ (rowCells_nodup m base x y left 0 hl) (d, false)
  simpa using this

end Sys2Proof.Machine
end

