-- ==== Sys2Proof/Tests/Slice0.lean ====
section
/-! SUPPORT. The model's own tests: the well-formedness check, decoding and encoding of words written out from
table T-OPCODES (spec/30_encoding.md rule R76), single steps from the vectors of spec/95_test_vectors.md (the
vector's name stands before each test), and a witness for the hypotheses of every statement that has some. -/

namespace Sys2Proof.Tests

open Sys2Proof.Machine

/-! ## Helpers -/

/-- The reset state with the pc at `a` and an opcode stored there. -/
def atPc (a : Addr) (op : Nat) : State := (State.reset.setPc a).withFetchWord 16 op

/-- The vectors' usual start: the opcode at 0x200. -/
def start (op : Nat) : State := atPc 0x200 op

def withStack (s : State) (sp : Fin 17) (slot : Fin 16) (a : Addr) : State :=
  { s with sp := sp, stack := s.stack.set slot.val a }

/-- The framebuffer with some pixels flipped. -/
def withPixels (s : State) (l : List (Fin 64 × Fin 32)) : State :=
  { s with fb := l.foldl (fun p c => Plane.flip p c.1 c.2) s.fb }

/-- The result is a next state that meets `p`. -/
def completes (r : Result) (p : State → Bool) : Bool :=
  match r with
  | .next s => p s
  | .fault _ | .refused _ => false

/-- The result is the fault `f`. -/
def faultsWith (r : Result) (f : Fault) : Bool :=
  match r with
  | .fault g => decide (g = f)
  | .next _ | .refused _ => false

/-- The result is the refusal `q`. -/
def refusesWith (r : Result) (q : Refusal) : Bool :=
  match r with
  | .refused p => decide (p = q)
  | .next _ | .fault _ => false

theorem succeeded_of_completes {r : Result} (h : completes r (fun _ => true) = true) : Succeeded r := by
  cases r with
  | next s => exact ⟨s, rfl⟩
  | fault f => simp [completes] at h
  | refused q => simp [completes] at h

/-! ## Well-formedness -/

/-- 0x0E0 is CLS, so SYS has no such operand (rule R75). -/
theorem test_wf_refuses_sys_0E0 : (Instr.sys 0x0E0).wellFormed = false := by decide

/-- 0x0EE is RET. -/
theorem test_wf_refuses_sys_0EE : (Instr.sys 0x0EE).wellFormed = false := by decide

theorem test_wf_accepts_neighbours :
    (Instr.sys 0x0DF).wellFormed = true ∧ (Instr.sys 0x0E1).wellFormed = true ∧
    (Instr.sys 0x0EF).wellFormed = true := by decide

/-! ## Decoding: every constructor from a word written out from the table's pattern -/

/-- 00E0, 00EE, 0nnn (DE1 to DE7). -/
theorem test_decode_family_0 :
    decode 0x00E0 = .ok .cls ∧ decode 0x00EE = .ok .ret ∧ decode 0x0000 = .ok (.sys 0x000) ∧
    decode 0x00E1 = .ok (.sys 0x0E1) ∧ decode 0x00EF = .ok (.sys 0x0EF) ∧
    decode 0x00FD = .ok (.sys 0x0FD) ∧ decode 0x0FFF = .ok (.sys 0xFFF) := ⟨rfl, rfl, rfl, rfl, rfl, rfl, rfl⟩

/-- 1nnn, 2nnn, Annn, Bnnn (DE8). -/
theorem test_decode_nnn :
    decode 0x1ABC = .ok (.jp 0xABC) ∧ decode 0x2300 = .ok (.call 0x300) ∧
    decode 0xA2F0 = .ok (.ldI 0x2F0) ∧ decode 0xBF0E = .ok (.jpV0 0xF0E) := ⟨rfl, rfl, rfl, rfl⟩

/-- 3xkk, 4xkk, 6xkk, 7xkk, Cxkk. -/
theorem test_decode_xkk :
    decode 0x332A = .ok (.seImm 3 0x2A) ∧ decode 0x4E17 = .ok (.sneImm 14 0x17) ∧
    decode 0x6F05 = .ok (.ldImm 15 0x05) ∧ decode 0x70FF = .ok (.addImm 0 0xFF) ∧
    decode 0xC30F = .ok (.rnd 3 0x0F) := ⟨rfl, rfl, rfl, rfl, rfl⟩

/-- 5xy0 and 9xy0 (DE9, DE16). -/
theorem test_decode_register_skips :
    decode 0x5120 = .ok (.seReg 1 2) ∧ decode 0x9AB0 = .ok (.sneReg 10 11) := ⟨rfl, rfl⟩

/-- The nine rows of family 8 (DE12). -/
theorem test_decode_alu :
    decode 0x8120 = .ok (.ldReg 1 2) ∧ decode 0x8341 = .ok (.orReg 3 4) ∧
    decode 0x8562 = .ok (.andReg 5 6) ∧ decode 0x8783 = .ok (.xorReg 7 8) ∧
    decode 0x89A4 = .ok (.addReg 9 10) ∧ decode 0x8BC5 = .ok (.subReg 11 12) ∧
    decode 0x8AB6 = .ok (.shr 10 11) ∧ decode 0x8DE7 = .ok (.subnReg 13 14) ∧
    decode 0x8F0E = .ok (.shl 15 0) := ⟨rfl, rfl, rfl, rfl, rfl, rfl, rfl, rfl, rfl⟩

/-- Dxyn (DE18). -/
theorem test_decode_drw :
    decode 0xD000 = .ok (.drw 0 0 0) ∧ decode 0xD12F = .ok (.drw 1 2 15) := ⟨rfl, rfl⟩

/-- Ex9E and ExA1 (DE19, DE21). -/
theorem test_decode_key : decode 0xEF9E = .ok (.skp 15) ∧ decode 0xE0A1 = .ok (.sknp 0) := ⟨rfl, rfl⟩

/-- The nine rows of family F (DE23). -/
theorem test_decode_misc :
    decode 0xF107 = .ok (.ldVxDt 1) ∧ decode 0xF30A = .ok (.ldVxK 3) ∧ decode 0xF415 = .ok (.ldDtVx 4) ∧
    decode 0xF518 = .ok (.ldStVx 5) ∧ decode 0xF61E = .ok (.addI 6) ∧ decode 0xF729 = .ok (.ldF 7) ∧
    decode 0xF833 = .ok (.ldB 8) ∧ decode 0xF955 = .ok (.stRegs 9) ∧ decode 0xFA65 = .ok (.ldRegs 10) :=
  ⟨rfl, rfl, rfl, rfl, rfl, rfl, rfl, rfl, rfl⟩

/-- The illegal opcodes of DE10, DE11, DE13, DE14, DE15, DE17, DE20, DE22 and DE24. -/
theorem test_decode_illegal :
    decode 0x5121 = .error (.illegalOpcode 0x5121) ∧ decode 0x512F = .error (.illegalOpcode 0x512F) ∧
    decode 0x8AB8 = .error (.illegalOpcode 0x8AB8) ∧ decode 0x8ABD = .error (.illegalOpcode 0x8ABD) ∧
    decode 0x8ABF = .error (.illegalOpcode 0x8ABF) ∧ decode 0x9AB1 = .error (.illegalOpcode 0x9AB1) ∧
    decode 0xE19F = .error (.illegalOpcode 0xE19F) ∧ decode 0xF000 = .error (.illegalOpcode 0xF000) ∧
    decode 0xF375 = .error (.illegalOpcode 0xF375) := ⟨rfl, rfl, rfl, rfl, rfl, rfl, rfl, rfl, rfl⟩

/-- The byte decoder takes two bytes, the first the more significant (S11), and refuses a lone byte. -/
theorem test_decodeBytes :
    decodeBytes [0x60, 0x05, 0x70] = .ok (.ldImm 0 0x05, [0x70]) ∧ decodeBytes [0x60] = .error .truncated :=
  ⟨rfl, rfl⟩

/-- Words of the table's patterns, from the encoder. -/
theorem test_encode :
    encode .cls = 0x00E0 ∧ encode (.sys 0x123) = 0x0123 ∧ encode (.seImm 3 0x2A) = 0x332A ∧
    encode (.shl 15 1) = 0x8F1E ∧ encode (.drw 1 2 5) = 0xD125 ∧ encode (.sknp 10) = 0xEAA1 ∧
    encode (.ldRegs 3) = 0xF365 ∧ encodeBytes (.ldImm 0 5) = [0x60, 0x05] := by decide

/-- The table's word of 16 bits: bit 15 is the opcode's most significant. -/
theorem test_decodeTableWord :
    decodeTableWord 16 0xD125 = some (.drw 1 2 5) ∧ decodeTableWord 16 0x5121 = none := ⟨rfl, rfl⟩

/-! ## The step cycle -/

/-- S11 and R50: the high byte lies at the pc. -/
theorem test_placeOpcode :
    (start 0x6005).mem.read 0x200 = 0x60 ∧ (start 0x6005).mem.read 0x201 = 0x05 := by decide

/-- S8: two instructions, one step each. -/
theorem test_two_instructions :
    completes (runOps (State.reset.setMem (State.reset.mem.writeBlock 0x200 [0x60, 0x05, 0x70, 0x03]))
      [.step, .step]) (fun t => t.reg 0 == 8 && t.pc == 0x204) = true := by decide

/-- SC1: the second byte of a fetch at 0xFFF is out of range. -/
theorem test_fetch_fault : faultsWith (step (atPc 0xFFF 0x1200)) (.addressRange 0x1000) = true := by decide

/-- SC2: the advance faults although the jump would have replaced the pc. -/
theorem test_advance_fault : faultsWith (step (atPc 0xFFE 0x1200)) (.addressRange 0x1000) = true := by decide

/-- SC4: the decode comes before the advance. -/
theorem test_decode_fault : faultsWith (step (atPc 0xFFE 0x5121)) (.decodeError 0x5121 0xFFE) = true := by
  decide

/-! ## Control flow -/

/-- CF1. -/
theorem test_sys : completes (step (start 0x0123)) (fun t => t == (start 0x0123).setPc 0x202) = true := by
  decide

/-- SC5. -/
theorem test_sys_near_end : completes (step (atPc 0xFFC 0x0000)) (fun t => t.pc == 0xFFE) = true := by decide

/-- CF5: a full stack pops its last slot. -/
theorem test_ret :
    completes (step (withStack (start 0x00EE) 16 15 0xABC))
      (fun t => t.pc == 0xABC && t.sp == 15) = true := by decide

/-- CF4. -/
theorem test_ret_underflow : faultsWith (step (start 0x00EE)) .stackUnderflow = true := by decide

/-- CF6. -/
theorem test_jp : completes (step (start 0x1234)) (fun t => t.pc == 0x234) = true := by decide

/-- SC3: a jump at 0xFFD completes. -/
theorem test_jp_last : completes (step (atPc 0xFFD 0x1200)) (fun t => t.pc == 0x200) = true := by decide

/-- CF10: the last free slot takes the advanced pc. -/
theorem test_call :
    completes (step (withStack (start 0x2300) 15 0 0x2AA))
      (fun t => t.pc == 0x300 && t.sp == 16 && t.stack[15] == 0x202 && t.stack[0] == 0x2AA) = true := by decide

/-- CF11. -/
theorem test_call_overflow :
    faultsWith (step (withStack (start 0x2300) 16 0 0x202)) .stackOverflow = true := by decide

/-- CF12 and CF13. -/
theorem test_seImm :
    completes (step ((start 0x332A).setReg 3 0x2A)) (fun t => t.pc == 0x204) = true ∧
    completes (step ((start 0x332A).setReg 3 0x2B)) (fun t => t.pc == 0x202) = true := by decide

/-- CF28: the number of the fault is the sum. -/
theorem test_seImm_fault : faultsWith (step (atPc 0xFFD 0x3000)) (.addressRange 0x1001) = true := by decide

/-- CF14 and CF15. -/
theorem test_sneImm :
    completes (step ((start 0x432A).setReg 3 0x2A)) (fun t => t.pc == 0x202) = true ∧
    completes (step ((start 0x432A).setReg 3 0x2B)) (fun t => t.pc == 0x204) = true := by decide

/-- CF16 and CF17. -/
theorem test_seReg :
    completes (step (((start 0x5120).setReg 1 7).setReg 2 7)) (fun t => t.pc == 0x204) = true ∧
    completes (step (((start 0x5120).setReg 1 7).setReg 2 8)) (fun t => t.pc == 0x202) = true := by decide

/-- CF19 and CF20. -/
theorem test_sneReg :
    completes (step (((start 0x9120).setReg 1 7).setReg 2 8)) (fun t => t.pc == 0x204) = true ∧
    completes (step (((start 0x9120).setReg 1 7).setReg 2 7)) (fun t => t.pc == 0x202) = true := by decide

/-- CF23. -/
theorem test_jpV0 : completes (step ((start 0xBF00).setReg 0 0xFF)) (fun t => t.pc == 0xFFF) = true := by
  decide

/-- CF25. -/
theorem test_jpV0_fault : faultsWith (step ((start 0xBFFF).setReg 0 0xFF)) (.addressRange 0x10FE) = true := by
  decide

/-! ## Loads and arithmetic -/

/-- AL2. -/
theorem test_ldImm :
    completes (step (start 0x6FFF)) (fun t => t == ((start 0x6FFF).setPc 0x202).setReg 15 0xFF) = true := by
  decide

/-- AL4: no carry out of ADD Vx, kk. -/
theorem test_addImm :
    completes (step ((start 0x7001).setReg 0 0xFF)) (fun t => t.reg 0 == 0 && t.reg 15 == 0) = true := by
  decide

/-- AL7. -/
theorem test_ldReg :
    completes (step ((start 0x8120).setReg 2 0x7C)) (fun t => t.reg 1 == 0x7C && t.reg 2 == 0x7C) = true := by
  decide

/-- AL8. -/
theorem test_orReg :
    completes (step ((((start 0x8121).setReg 1 0xF0).setReg 2 0x3C).setReg 15 0x55))
      (fun t => t.reg 1 == 0xFC && t.reg 15 == 0x55) = true := by decide

/-- AL9. -/
theorem test_andReg :
    completes (step ((((start 0x8122).setReg 1 0xF0).setReg 2 0x3C).setReg 15 0x55))
      (fun t => t.reg 1 == 0x30 && t.reg 15 == 0x55) = true := by decide

/-- AL10. -/
theorem test_xorReg :
    completes (step ((((start 0x8123).setReg 1 0xF0).setReg 2 0x3C).setReg 15 0x55))
      (fun t => t.reg 1 == 0xCC && t.reg 15 == 0x55) = true := by decide

/-- AL15 and AL14: 255 does not exceed 255. -/
theorem test_addReg :
    completes (step (((start 0x8124).setReg 1 0xFF).setReg 2 0xFF))
      (fun t => t.reg 1 == 0xFE && t.reg 15 == 1) = true ∧
    completes (step (((start 0x8124).setReg 1 0xFE).setReg 2 0x01))
      (fun t => t.reg 1 == 0xFF && t.reg 15 == 0) = true := by decide

/-- AL17 and AL18: VF as destination and as source. -/
theorem test_addReg_flag_operand :
    completes (step (((start 0x8F14).setReg 15 0xF0).setReg 1 0x20)) (fun t => t.reg 15 == 0x10) = true ∧
    completes (step (((start 0x81F4).setReg 1 0x10).setReg 15 0x01))
      (fun t => t.reg 1 == 0x11 && t.reg 15 == 0) = true := by decide

/-- AL19 and AL21: equal operands give 0. -/
theorem test_subReg :
    completes (step ((((start 0x8125).setReg 1 0x05).setReg 2 0x0A).setReg 15 1))
      (fun t => t.reg 1 == 0xFB && t.reg 15 == 0) = true ∧
    completes (step ((((start 0x8125).setReg 1 0x07).setReg 2 0x07).setReg 15 1))
      (fun t => t.reg 1 == 0x00 && t.reg 15 == 0) = true := by decide

/-- AL24: the result wins in VF. -/
theorem test_subReg_flag :
    completes (step (((start 0x8F15).setReg 15 9).setReg 1 4)) (fun t => t.reg 15 == 5) = true := by decide

/-- AL25: Vy is not read. -/
theorem test_shr :
    completes (step (((start 0x8126).setReg 1 0x05).setReg 2 0xAA))
      (fun t => t.reg 1 == 0x02 && t.reg 15 == 1 && t.reg 2 == 0xAA) = true := by decide

/-- AL29. -/
theorem test_shr_flag : completes (step ((start 0x8F26).setReg 15 3)) (fun t => t.reg 15 == 1) = true := by
  decide

/-- AL30 and AL31. -/
theorem test_subnReg :
    completes (step (((start 0x8127).setReg 1 0x05).setReg 2 0x0A))
      (fun t => t.reg 1 == 0x05 && t.reg 15 == 1) = true ∧
    completes (step ((((start 0x8127).setReg 1 0x0A).setReg 2 0x05).setReg 15 1))
      (fun t => t.reg 1 == 0xFB && t.reg 15 == 0) = true := by decide

/-- AL33 and AL34. -/
theorem test_shl :
    completes (step ((start 0x812E).setReg 1 0x81)) (fun t => t.reg 1 == 0x02 && t.reg 15 == 1) = true ∧
    completes (step (((start 0x812E).setReg 1 0x7F).setReg 15 1))
      (fun t => t.reg 1 == 0xFE && t.reg 15 == 0) = true := by decide

/-- AL37. -/
theorem test_shl_flag : completes (step ((start 0x8FFE).setReg 15 0xC1)) (fun t => t.reg 15 == 0x82) = true := by
  decide

/-- AL39: under an empty mask every draw gives 0. -/
theorem test_rnd : ∃ t, exec (.rnd 3 0x00) ((start 0xC300).setReg 3 0x55) = .next t ∧ t.reg 3 = 0x00 := by
  refine ⟨_, rfl, ?_⟩
  simp [State.reg, State.setReg, State.draw]

/-- The step over RND answers, whatever byte is drawn. -/
theorem test_rnd_step : completes (step (start 0xC30F)) (fun t => t.pc == 0x202 && t.draws == 1) = true := rfl

/-! ## Index register and memory -/

/-- IM2. -/
theorem test_ldI : completes (step (start 0xAFFF)) (fun t => t.i == 0xFFF) = true := by decide

/-- IM4: no flag. -/
theorem test_addI :
    completes (step (((start 0xF41E).setI 0xF00).setReg 4 0xFF))
      (fun t => t.i == 0xFFF && t.reg 15 == 0) = true := by decide

/-- IM5. -/
theorem test_addI_fault :
    faultsWith (step (((start 0xF41E).setI 0xFFF).setReg 4 1)) (.addressRange 0x1000) = true := by decide

/-- IM10. -/
theorem test_ldF : completes (step ((start 0xF229).setReg 2 0x0F)) (fun t => t.i == 0x04B) = true := by decide

/-- IM11. -/
theorem test_ldF_high : refusesWith (step ((start 0xF229).setReg 2 0x10)) (.unspecifiedGlyph 0x10) = true := by
  decide

/-- IM16: the last three bytes of memory. -/
theorem test_ldB :
    completes (step (((start 0xF333).setReg 3 0xFF).setI 0xFFD))
      (fun t => t.mem.read 0xFFD == 2 && t.mem.read 0xFFE == 5 && t.mem.read 0xFFF == 5 && t.i == 0xFFD)
      = true := by decide

/-- IM17. -/
theorem test_ldB_fault :
    faultsWith (step (((start 0xF333).setReg 3 0xFF).setI 0xFFE)) (.addressRange 0x1000) = true := by decide

/-- IM18: V3 is not stored. -/
theorem test_stRegs :
    completes (step ((((((start 0xF255).setI 0x300).setReg 0 0x11).setReg 1 0x22).setReg 2 0x33).setReg 3 0x44))
      (fun t => t.mem.read 0x300 == 0x11 && t.mem.read 0x301 == 0x22 && t.mem.read 0x302 == 0x33 &&
        t.mem.read 0x303 == 0x00 && t.i == 0x303) = true := by decide

/-- IM21: all sixteen bytes exist, the new index does not. -/
theorem test_stRegs_fault :
    faultsWith (step ((start 0xFF55).setI 0xFF0)) (.addressRange 0x1000) = true := by decide

/-- IM25: the first sixteen bytes of the font. -/
theorem test_ldRegs :
    completes (step (start 0xFF65))
      (fun t => t.v.toList == [0xF0, 0x90, 0x90, 0x90, 0xF0, 0x20, 0x60, 0x20, 0x20, 0x70, 0xF0, 0x10, 0xF0,
        0x80, 0xF0, 0xF0] && t.i == 0x010) = true := by decide

/-- IM26. -/
theorem test_ldRegs_fault :
    faultsWith (step ((start 0xF165).setI 0xFFE)) (.addressRange 0x1000) = true := by decide

/-! ## Display -/

/-- DS13. -/
theorem test_cls :
    completes (step (withPixels (start 0x00E0) [(0, 0), (9, 5)]))
      (fun t => t.fb == Plane.blank && Plane.get t.dirty 0 0 && Plane.get t.dirty 9 5 &&
        !Plane.get t.dirty 5 9) = true := by decide

/-- DS7: one pixel set, one cleared, a collision. -/
theorem test_drw :
    completes (step (withPixels
        (((start 0xD121).setMem ((start 0xD121).mem.write 0x300 0xC0)).setI 0x300 |>.setReg 1 0x0A
          |>.setReg 2 0x05) [(11, 5)]))
      (fun t => Plane.get t.fb 10 5 && !Plane.get t.fb 11 5 && Plane.get t.dirty 10 5 &&
        Plane.get t.dirty 11 5 && t.reg 15 == 1) = true := by decide

/-- DS9. -/
theorem test_drw_fault : faultsWith (step ((start 0xD122).setI 0xFFF)) (.addressRange 0x1000) = true := by
  decide

/-! ## Timers and keys -/

/-- TK1, TK2 and TK4: the whole byte is compared. -/
theorem test_skp :
    completes (step (((start 0xE59E).setReg 5 7).setKey 7)) (fun t => t.pc == 0x204 && t.key == some 7) = true ∧
    completes (step (((start 0xE59E).setReg 5 7).setKey 8)) (fun t => t.pc == 0x202) = true ∧
    completes (step (((start 0xE59E).setReg 5 0x17).setKey 7)) (fun t => t.pc == 0x202) = true := by decide

/-- TK6: no key is not key 0. -/
theorem test_skp_none : completes (step (start 0xE59E)) (fun t => t.pc == 0x202) = true := by decide

/-- TK7. -/
theorem test_sknp :
    completes (step (((start 0xE5A1).setReg 5 7).setKey 7)) (fun t => t.pc == 0x202) = true ∧
    completes (step (((start 0xE5A1).setReg 5 7).setKey 8)) (fun t => t.pc == 0x204) = true ∧
    completes (step ((start 0xE5A1).setReg 5 7)) (fun t => t.pc == 0x204) = true := by decide

/-- TK12. -/
theorem test_ldVxDt : completes (step ((start 0xF307).setDt 0x3C)) (fun t => t.reg 3 == 0x3C) = true := by
  decide

/-- TK9: the step changes nothing. -/
theorem test_ldVxK_waits : completes (step (start 0xF30A)) (fun t => t == start 0xF30A) = true := by decide

/-- TK10: the latch keeps its key. -/
theorem test_ldVxK :
    completes (step ((start 0xF30A).setKey 0xB))
      (fun t => t.reg 3 == 0x0B && t.pc == 0x202 && t.key == some 0xB) = true := by decide

/-- TK14. -/
theorem test_ldDtVx :
    completes (step ((start 0xF315).setReg 3 0x3C)) (fun t => t.dt == 0x3C && t.st == 0) = true := by decide

/-- TK17. -/
theorem test_ldStVx :
    completes (step ((start 0xF318).setReg 3 0xFF)) (fun t => t.st == 0xFF && t.dt == 0) = true := by decide

/-! ## Host operations -/

/-- HO1 and HO3. -/
theorem test_tick :
    State.reset.tick = State.reset ∧ ((State.reset.setSt 0xFF).tick).st = 0xFE ∧
    ((State.reset.setSt 0xFF).tick).dt = 0x00 := by decide

/-- HO5 and HO6. -/
theorem test_keys :
    ((State.reset.setKey 0xB).setKey 3).key = some 3 ∧
    ((State.reset.setKey 0xB).clearKey.clearKey).key = none := by decide

/-- HO7: what the empty program leaves in memory. -/
theorem test_reset_memory :
    State.reset.mem.read 0x000 = 0xF0 ∧ State.reset.mem.read 0x04F = 0x80 ∧
    State.reset.mem.read 0x050 = 0x00 ∧ State.reset.mem.read 0x200 = 0x00 ∧
    State.reset.mem.read 0xFFF = 0x00 := by decide

/-- R235: a render leaves no coordinate dirty. -/
theorem test_render_drains :
    ((State.reset.setDisplay (State.reset.display.toggle 9 5).1).render.2).dirty = Plane.blank := by decide

/-! ## Witnesses: concrete states and operands that meet the hypotheses of each statement, clause by clause,
at the boundary values of each clause. `completes … = true` says that the premise "answers a next state"
is met. -/

/-- AddressAddNeverWraps: the last sum in range and the first out of it. -/
theorem wit_AddressAddNeverWraps :
    (0xF00 : Addr).toNat + 0xFF ≤ 0xFFF ∧ 0xFFF < (0xFFF : Addr).toNat + 1 := by decide

/-- MemoryReadAfterWrite: the fetch at 0xFFE and at 0xFFF. -/
theorem wit_MemoryReadAfterWrite :
    (atPc 0xFFE 0x1200).pc.toNat ≤ 0xFFE ∧ (atPc 0xFFF 0x1200).pc.toNat = 0xFFF := by decide

/-- ConstructGivesResetTable: the longest program, and one byte more. -/
theorem wit_ConstructGivesResetTable :
    (List.replicate 3584 (0xFF : Byte)).length ≤ 3584 ∧ 3584 < (List.replicate 3585 (0xFF : Byte)).length := by
  rw [List.length_replicate, List.length_replicate]; decide

/-- OnlyListedWritersWrite: a host operation and a step that answer. -/
theorem wit_OnlyListedWritersWrite :
    (∃ t, applyOp State.reset .tick = .next t) ∧ ∃ t, step (start 0xF365) = .next t :=
  ⟨⟨_, rfl⟩, succeeded_of_completes (by decide)⟩

theorem inv_start_call : (withStack (start 0x2300) 1 0 0x202).Inv := by
  refine ⟨by decide, ?_⟩
  unfold State.StackLive
  decide

/-- EveryOperationKeepsInvariant: a state with a live slot that meets the invariant, and a step from it. -/
theorem wit_EveryOperationKeepsInvariant :
    (withStack (start 0x2300) 1 0 0x202).Inv ∧
    ∃ t, applyOp (withStack (start 0x2300) 1 0 0x202) .step = .next t :=
  ⟨inv_start_call, succeeded_of_completes (by decide)⟩

/-- EveryRunMeetsInvariant: a construction and a run from it that succeeds. -/
theorem wit_EveryRunMeetsInvariant :
    ∃ s t, construct Config.font [] = .next s ∧ runOps s [.tick, .setKey 3, .render] = .next t :=
  ⟨_, _, rfl, rfl⟩

/-- StepIgnoresHiddenState: two different states that a program cannot tell apart. -/
theorem wit_StepIgnoresHiddenState :
    (start 0x2300).SameVisible (withStack ((start 0x2300).setSt 9) 0 0 0x300) ∧
    start 0x2300 ≠ withStack ((start 0x2300).setSt 9) 0 0 0x300 := by
  refine ⟨⟨rfl, rfl, rfl, rfl, ?_, rfl, rfl, rfl, rfl, rfl⟩, by decide⟩
  decide

/-- FetchIsBigEndian. -/
theorem wit_FetchIsBigEndian :
    (start 0x6005).pc = 0x200 ∧ (start 0x6005).mem.read 0x200 = 0x60 ∧ (start 0x6005).mem.read 0x201 = 0x05 ∧
    (start 0x6005).fetch = .ok 0x6005 := ⟨rfl, by decide, by decide, rfl⟩

/-- StoredOpcodeIsFetched: the last address an opcode fits at. -/
theorem wit_StoredOpcodeIsFetched : (State.reset.setPc 0xFFE).pc.toNat ≤ 0xFFE := by decide

/-- DecodeOfEncode. -/
theorem wit_DecodeOfEncode :
    (Instr.drw 15 15 15).wellFormed = true ∧ (Instr.sys 0x0E1).wellFormed = true := by decide

/-- TablePatternsDecode: an operand of SYS. -/
theorem wit_TablePatternsDecode : (0x0E1 : Addr) ≠ 0x0E0 ∧ (0x0E1 : Addr) ≠ 0x0EE := by decide

/-- EncodeOfDecode. -/
theorem wit_EncodeOfDecode : decode 0x8AB6 = .ok (.shr 10 11) := rfl

/-- IllegalOpcodesExactly. -/
theorem wit_IllegalOpcodesExactly : decode 0x5121 = .error (.illegalOpcode 0x5121) := rfl

/-- StepRunsDecodedInstruction: each of the four clauses. -/
theorem wit_StepRunsDecodedInstruction :
    (atPc 0xFFF 0x1200).pc.toNat = 0xFFF ∧
    ((atPc 0xFFE 0x5121).fetch = .ok 0x5121 ∧ ∀ i, decode 0x5121 ≠ .ok i) ∧
    ((atPc 0xFFE 0x1200).fetch = .ok 0x1200 ∧ decode 0x1200 = .ok (.jp 0x200) ∧
      (atPc 0xFFE 0x1200).pc.toNat = 0xFFE) ∧
    ((atPc 0xFFD 0x1200).fetch = .ok 0x1200 ∧ decode 0x1200 = .ok (.jp 0x200) ∧
      (atPc 0xFFD 0x1200).pc.toNat ≤ 0xFFD) := by
  refine ⟨by decide, ⟨rfl, ?_⟩, ⟨rfl, rfl, by decide⟩, rfl, rfl, by decide⟩
  intro i h
  have e : decode 0x5121 = .error (.illegalOpcode 0x5121) := rfl
  rw [e] at h
  cases h

/-- NothingCompletesAboveFFD: a step that completes at the last address it can. -/
theorem wit_NothingCompletesAboveFFD : ∃ t, step (atPc 0xFFD 0x1200) = .next t :=
  succeeded_of_completes (by decide)

/-- StepLeavesTimersAndLatch: the two loads with a new value, and a step with a dirty pixel. -/
theorem wit_StepLeavesTimersAndLatch :
    completes (step ((start 0xF315).setReg 3 5)) (fun t => t.dt != 0) = true ∧
    completes (step ((start 0xF318).setReg 3 5)) (fun t => t.st != 0) = true ∧
    ((start 0x00E0).setDisplay ((start 0x00E0).display.toggle 9 5).1).dirty ≠ Plane.blank ∧
    completes (step ((start 0x00E0).setDisplay ((start 0x00E0).display.toggle 9 5).1)) (fun _ => true) = true := by
  decide

/-- SysIsIgnored: at the last address a step completes. -/
theorem wit_SysIsIgnored :
    (0x0E1 : Addr) ≠ 0x0E0 ∧ (0x0E1 : Addr) ≠ 0x0EE ∧
    (atPc 0xFFD 0x00E1).fetch = .ok (BitVec.ofNat 16 (0x0E1 : Addr).toNat) ∧
    (atPc 0xFFD 0x00E1).pc.toNat ≤ 0xFFD := ⟨by decide, by decide, rfl, by decide⟩

/-- ReturnPopsOrUnderflows: one saved address, sixteen, none. -/
theorem wit_ReturnPopsOrUnderflows :
    (withStack State.reset 1 0 0x202).sp.val = (0 : Fin 16).val + 1 ∧
    (withStack State.reset 16 15 0xABC).sp.val = (15 : Fin 16).val + 1 ∧ State.reset.sp.val = 0 := by decide

/-- JumpSetsPc: a target whose next step faults, and a jump to itself. -/
theorem wit_JumpSetsPc : 0xFFE ≤ (0xFFE : Addr).toNat ∧ (start 0x1200).Finished := ⟨by decide, by decide, rfl⟩

/-- FinishedStaysFinished: a jump to itself at the last address it can execute. -/
theorem wit_FinishedStaysFinished : (atPc 0xFFD 0x1FFD).Finished := ⟨by decide, rfl⟩

/-- CallPushesOrOverflows: an empty stack, one with a slot left, a full one. -/
theorem wit_CallPushesOrOverflows :
    State.reset.sp.val = (0 : Fin 16).val ∧ (withStack State.reset 15 0 0x202).sp.val = (15 : Fin 16).val ∧
    (withStack State.reset 16 0 0x202).sp.val = 16 := by decide

/-- RegisterSkips: each condition met and not met, with the pc on both sides of the bound. -/
theorem wit_RegisterSkips :
    State.reset.reg 3 = 0x00 ∧ State.reset.reg 3 ≠ 0x01 ∧ State.reset.reg 1 = State.reset.reg 2 ∧
    (State.reset.setReg 1 5).reg 1 ≠ (State.reset.setReg 1 5).reg 2 ∧
    (State.reset.setPc 0xFFD).pc.toNat ≤ 0xFFD ∧ 0xFFD < (State.reset.setPc 0xFFE).pc.toNat := by decide

/-- JumpWithOffset: the last target in range and the first out of it. -/
theorem wit_JumpWithOffset :
    (0xF00 : Addr).toNat + ((State.reset.setReg 0 0xFF).reg 0).toNat ≤ 0xFFF ∧
    0xFFF < (0xF01 : Addr).toNat + ((State.reset.setReg 0 0xFF).reg 0).toNat := by decide

/-- CallThenReturn: 2300 at 0x200 and 00EE at 0x300 (S2). -/
theorem wit_CallThenReturn :
    let s := (start 0x2300).setMem (((start 0x2300).mem.write 0x300 0x00).write 0x301 0xEE)
    s.sp.val < 16 ∧ s.pc.toNat ≤ 0xFFD ∧ (0x300 : Addr).toNat ≤ 0xFFD ∧
    s.fetch = .ok (BitVec.ofNat 16 (0x2000 + (0x300 : Addr).toNat)) ∧ (s.setPc 0x300).fetch = .ok 0x00EE :=
  ⟨by decide, by decide, by decide, rfl, rfl⟩

/-- WritesFlagAndReg in AddRegisterCarries, SubtractionsBorrow and ShiftsByOne: a destination that is not VF,
and both sides of the conditions. -/
theorem wit_WritesFlagAndReg :
    (1 : RegIdx) ≠ 15 ∧ 255 < ((State.reset.setReg 1 0xFF).reg 1).toNat + 1 ∧
    ((State.reset.setReg 1 1).reg 1).toNat > (State.reset.reg 2).toNat := by decide

/-- RandomUnderMask: a mask with a clear bit. -/
theorem wit_RandomUnderMask : (0x0F : Byte).getLsbD 4 = false := by decide

/-- AddToIndex. -/
theorem wit_AddToIndex :
    ((State.reset.setI 0xF00).setReg 4 0xFF).i.toNat + (((State.reset.setI 0xF00).setReg 4 0xFF).reg 4).toNat
      ≤ 0xFFF ∧
    0xFFF < ((State.reset.setI 0xFFF).setReg 4 1).i.toNat + (((State.reset.setI 0xFFF).setReg 4 1).reg 4).toNat := by
  decide

/-- GlyphAddress: the last digit and the first value above it. -/
theorem wit_GlyphAddress :
    ((State.reset.setReg 2 0x0F).reg 2).toNat ≤ 15 ∧ 15 < ((State.reset.setReg 2 0x10).reg 2).toNat := by decide

/-- StoreDecimalDigits. -/
theorem wit_StoreDecimalDigits :
    (State.reset.setI 0xFFD).i.toNat ≤ 0xFFD ∧ 0xFFD < (State.reset.setI 0xFFE).i.toNat := by decide

/-- StoreRegisterBlock and LoadRegisterBlock: sixteen registers up to 0xFFE, and one byte further; a register
inside the block and one above it. -/
theorem wit_RegisterBlocks :
    (State.reset.setI 0xFEF).i.toNat + (15 : RegIdx).val + 1 ≤ 0xFFF ∧
    0xFFF < (State.reset.setI 0xFF0).i.toNat + (15 : RegIdx).val + 1 ∧
    (2 : RegIdx).val ≤ (2 : RegIdx).val ∧ (2 : RegIdx).val < (3 : RegIdx).val := by decide

/-- StoreThenLoadBlock: V0 is stored at 0x300 and loaded from there by a state with other registers. -/
theorem wit_StoreThenLoadBlock :
    ∃ t v, exec (.stRegs 0) ((State.reset.setReg 0 0x5A).setI 0x300) = .next t ∧
      (State.reset.setMem t.mem |>.setI 0x300).mem = t.mem ∧
      (State.reset.setMem t.mem |>.setI 0x300).i = ((State.reset.setReg 0 0x5A).setI 0x300).i ∧
      exec (.ldRegs 0) (State.reset.setMem t.mem |>.setI 0x300) = .next v :=
  ⟨_, _, rfl, rfl, rfl, rfl⟩

/-- ToggleFlipsOnePixel: coordinates that wrap. -/
theorem wit_ToggleFlipsOnePixel : (2 : Fin 64).val = 66 % 64 ∧ (31 : Fin 32).val = 63 % 32 := by decide

/-- A one-row sprite 0x80 at V1 = V2 = 0, with I as given. -/
def spriteState (i : Addr) : State := (State.reset.setMem (State.reset.mem.write i 0x80)).setI i

/-- DrawIsXorWithCollision: an empty sprite with I at the end, a sprite in the last byte of memory, a pixel it
covers, and the same pixel set before. -/
theorem wit_DrawIsXorWithCollision :
    ((0 : Fin 16).val = 0 ∨ (State.reset.setI 0xFFF).i.toNat + (0 : Fin 16).val ≤ 0x1000) ∧
    ((1 : Fin 16).val = 0 ∨ (spriteState 0xFFF).i.toNat + (1 : Fin 16).val ≤ 0x1000) ∧
    SpriteCovers (spriteState 0xFFF) 1 2 1 0 0 ∧ Plane.get (spriteState 0xFFF).fb 0 0 = false ∧
    SpriteCovers (withPixels (spriteState 0xFFF) [(0, 0)]) 1 2 1 0 0 ∧
    Plane.get (withPixels (spriteState 0xFFF) [(0, 0)]).fb 0 0 = true :=
  ⟨by decide, by decide, ⟨0, 0, by decide⟩, by decide, ⟨0, 0, by decide⟩, by decide⟩

/-- The other clauses: no pixel is covered by a sprite of no rows, and the clear screen has no covered pixel
set. -/
theorem wit_DrawIsXorWithCollision_clear :
    (¬SpriteCovers State.reset 1 2 0 0 0) ∧
    ∀ cx cy, SpriteCovers (spriteState 0xFFF) 1 2 1 cx cy → Plane.get (spriteState 0xFFF).fb cx cy = false := by
  refine ⟨fun h => ?_, fun cx cy _ => ?_⟩
  · obtain ⟨row, _, h, -⟩ := h
    exact absurd h (by simp)
  · simp [spriteState, State.setMem, State.setI, State.reset, Plane.get, Plane.blank]

/-- DrawOutOfMemoryFaults: the second row lies at 0x1000. -/
theorem wit_DrawOutOfMemoryFaults :
    (2 : Fin 16).val ≠ 0 ∧ 0x1000 < (State.reset.setI 0xFFF).i.toNat + (2 : Fin 16).val := by decide

/-- DrawTwiceRestores: two draws over a clear screen, the second from the first one's state (`u = t`). -/
theorem wit_DrawTwiceRestores :
    ∃ t v, exec (.drw 1 2 1) (spriteState 0x300) = .next t ∧ t.reg 1 = (spriteState 0x300).reg 1 ∧
      t.reg 2 = (spriteState 0x300).reg 2 ∧ t.i = (spriteState 0x300).i ∧
      (∀ a : Addr, t.mem.read a = (spriteState 0x300).mem.read a) ∧ exec (.drw 1 2 1) t = .next v ∧
      SpriteCovers (spriteState 0x300) 1 2 1 0 0 ∧ Plane.get (spriteState 0x300).fb 0 0 = false :=
  ⟨_, _, rfl, rfl, rfl, rfl, fun _ => rfl, rfl, ⟨0, 0, by decide⟩, by decide⟩

/-- KeySkips: the latched key in Vx, and no key. -/
theorem wit_KeySkips :
    (∃ k, ((State.reset.setReg 5 7).setKey 7).key = some k ∧
      k.toNat = (((State.reset.setReg 5 7).setKey 7).reg 5).toNat) ∧
    ¬∃ k, State.reset.key = some k ∧ k.toNat = (State.reset.reg 5).toNat := by
  refine ⟨⟨7, rfl, by decide⟩, fun h => ?_⟩
  obtain ⟨k, h, -⟩ := h
  cases h

/-- KeyReadWaitsOrStores: both cases of the latch. -/
theorem wit_KeyReadWaitsOrStores :
    State.reset.key = none ∧ 2 ≤ (State.reset.setPc 2).pc.toNat ∧ (State.reset.setKey 0xF).key = some 0xF := by
  decide

/-- EmptyLatchSpins: Fx0A at 0x200 and at 0xFFD. -/
theorem wit_EmptyLatchSpins :
    (atPc 0xFFD 0xF30A).key = none ∧ (atPc 0xFFD 0xF30A).pc.toNat ≤ 0xFFD ∧
    (atPc 0xFFD 0xF30A).fetch = .ok (BitVec.ofNat 16 (0xF00A + (3 : RegIdx).val * 0x100)) :=
  ⟨by decide, by decide, rfl⟩

/-- KeyOperationsReplaceLatch. -/
theorem wit_KeyOperationsReplaceLatch : State.reset.key = none := rfl

/-- EveryPixelChangeIsDirty: a step that clears a set pixel. -/
theorem wit_EveryPixelChangeIsDirty :
    completes (step (withPixels (start 0x00E0) [(9, 5)]))
      (fun t => Plane.get t.fb 9 5 != Plane.get (withPixels (start 0x00E0) [(9, 5)]).fb 9 5) = true := by decide

/-- InfiniteRuns: a run that fails at its first step, a construction with a position it succeeds at, and a
finished program. -/
theorem wit_InfiniteRuns :
    (Succeeded (runFor (fun _ => .step) (start 0x00EE) 0) ∧
      ¬Succeeded (runFor (fun _ => .step) (start 0x00EE) 1)) ∧
    (∃ s t, construct Config.font [] = .next s ∧ runFor (fun _ => .tick) s 3 = .next t) ∧
    (start 0x1200).Finished := by
  refine ⟨⟨⟨_, rfl⟩, fun ⟨t, h⟩ => ?_⟩, ⟨_, _, rfl, rfl⟩, by decide, rfl⟩
  have e : runFor (fun _ => .step) (start 0x00EE) 1 = .fault .stackUnderflow := rfl
  rw [e] at h
  cases h

/-- ExecuteFaultsByInstruction: each of the three kinds. -/
theorem wit_ExecuteFaultsByInstruction :
    exec (.call 0x300) (withStack State.reset 16 0 0x202) = .fault .stackOverflow ∧
    exec .ret State.reset = .fault .stackUnderflow ∧
    exec (.jpV0 0xFFF) (State.reset.setReg 0 0xFF) = .fault (.addressRange 0x10FE) := ⟨rfl, rfl, rfl⟩

/-- DecodeErrorExactly: an opcode that raises it, and one of a family that never does. -/
theorem wit_DecodeErrorExactly :
    step (atPc 0xFFE 0x5121) = .fault (.decodeError 0x5121 0xFFE) ∧
    (0xD000 : Opcode).extractLsb' 12 4 ∈
      ([0x0, 0x1, 0x2, 0x3, 0x4, 0x6, 0x7, 0xA, 0xB, 0xC, 0xD] : List (BitVec 4)) := ⟨rfl, by decide⟩

/-- StackFaultsExactly: both faults at the last address a step gets as far as its execute phase. -/
theorem wit_StackFaultsExactly :
    step (withStack (atPc 0xFFD 0x2300) 16 0 0x202) = .fault .stackOverflow ∧
    step (atPc 0xFFD 0x00EE) = .fault .stackUnderflow := ⟨rfl, rfl⟩

/-- OnlyGlyphAboveFifteenIsUnspecified. -/
theorem wit_OnlyGlyphAboveFifteenIsUnspecified :
    step ((start 0xF229).setReg 2 0x10) = .refused (.unspecifiedGlyph 0x10) := rfl

end Sys2Proof.Tests
end

/-! The statements about scope and notation (spec/00_scope.md). -/

namespace Sys2Proof.Machine

/-- `LD F` refuses only values that have no glyph (rules R9 and R172). -/
theorem execLdF_eq_refused {x : RegIdx} {s : State} {q : Refusal} (h : execLdF x s = .refused q) :
    15 < (s.reg x).toNat ∧ q = .unspecifiedGlyph (s.reg x) := by
  unfold execLdF at h
  by_cases hx : (s.reg x).toNat ≤ 15
  · rw [glyphAddress_of_le hx] at h
    cases h
  · have hgt : 15 < (s.reg x).toNat := by omega
    rw [glyphAddress_of_gt hgt] at h
    cases h
    exact ⟨hgt, rfl⟩

/-- `LD Vx, K` answers a next state whether a key is latched or not. -/
theorem execLdVxK_ne_refused (x : RegIdx) (s : State) (q : Refusal) : execLdVxK x s ≠ .refused q := by
  unfold execLdVxK
  cases s.key <;> exact nofun

/-- The execute phase refuses no instruction but `LD F` (rule R9): the others write at once, skip, or
continue from a value whose computation may only fault. -/
theorem exec_eq_refused {i : Instr} {s : State} {q : Refusal} (h : exec i s = .refused q) :
    ∃ x, i = .ldF x ∧ 15 < (s.reg x).toNat ∧ q = .unspecifiedGlyph (s.reg x) := by
  cases i with
  | ldF x => exact ⟨x, rfl, execLdF_eq_refused h⟩
  | ldVxK x => exact absurd h (execLdVxK_ne_refused x s q)
  | seImm | sneImm | seReg | sneReg | skp | sknp => exact absurd h (State.skipIf_ne_refused _ _ q)
  | ret | call | jpV0 | drw | addI | ldB | stRegs | ldRegs =>
    obtain ⟨_, _, hnext⟩ := orRaise_eq_refused h
    cases hnext
  | cls | sys | jp | ldImm | addImm | ldReg | orReg | andReg | xorReg | addReg | subReg | shr | subnReg | shl
  | ldI | rnd | ldVxDt | ldDtVx | ldStVx => cases h

/-- A step that is refused got as far as the execute phase and was refused there. -/
theorem step_eq_refused {s : State} {q : Refusal} (h : step s = .refused q) :
    ∃ op i, s.fetch = .ok op ∧ decode op = .ok i ∧ s.pc.toNat ≤ 0xFFD ∧
      exec i (s.setPc (s.pc + 2)) = .refused q := by
  rcases step_cases s with ⟨_, e⟩ | ⟨op, hf, ⟨_, e⟩ | ⟨i, hd, ⟨_, e⟩ | ⟨hp, e⟩⟩⟩
  · rw [e] at h; cases h
  · rw [e] at h; cases h
  · rw [e] at h; cases h
  · exact ⟨op, i, hf, hd, hp, e ▸ h⟩

/-- The number that two joined bytes make, the first the more significant (rule R14). -/
theorem joinBytes_toNat (hi lo : Byte) : (joinBytes hi lo).toNat = hi.toNat * 256 + lo.toNat := by
  have := hi.isLt
  have := lo.isLt
  simp only [joinBytes, BitVec.toNat_ofNat]
  omega

/-- Settles O57: only the execute phase refuses, and there only `LD F` above 15. -/
theorem onlyGlyphAboveFifteenIsUnspecified : Obligations.OnlyGlyphAboveFifteenIsUnspecified := by
  intro s q h
  obtain ⟨op, i, hf, hd, -, he⟩ := step_eq_refused h
  obtain ⟨x, rfl, hx⟩ := exec_eq_refused he
  exact ⟨op, x, hf, hd, hx⟩

/-- Settles O2, by the laws of a memory read after a write and of the fetch at either side of 0xFFE. -/
theorem memoryReadAfterWrite : Obligations.MemoryReadAfterWrite :=
  ⟨Memory.read_write, fun _ =>
    ⟨fun hle => ⟨_, State.fetch_of_le hle, joinBytes_toNat _ _⟩, State.fetch_of_last⟩⟩

/-- Settles O1, by the two cases of the bounded add. -/
theorem addressAddNeverWraps : Obligations.AddressAddNeverWraps := by
  intro a k
  refine ⟨fun hle => ?_, addrAdd_of_gt⟩
  have hok := addrAdd_of_le hle
  exact ⟨_, hok, (addrAdd_ok hok).2⟩

end Sys2Proof.Machine

/-! The statements about the state: its reset value, what each operation can change, the invariant of
reachable states and what no step can see (spec/10_state.md). -/

namespace Sys2Proof.Machine

/-! ## Frames: what each write to the state leaves as it was -/

theorem SameItem.trans {s t u : State} {it : Item} (h : SameItem s t it) (h' : SameItem t u it) :
    SameItem s u it := by
  cases it with
  | regs => exact fun r => (h' r).trans (h r)
  | stack => exact ⟨h'.1.trans h.1, fun j => (h'.2 j).trans (h.2 j)⟩
  | memory => exact fun a => (h' a).trans (h a)
  | screen | dirty => exact fun x y => (h' x y).trans (h x y)
  | pc | index | delay | sound | key | draws => exact Eq.trans h' h

theorem SameItem.refl (s : State) (it : Item) : SameItem s s it := by
  cases it <;> simp [SameItem]

/-- A longer list of items that may change is a weaker frame. -/
theorem FrameBut.mono {k l : List Item} {s t : State} (h : FrameBut k s t) (hkl : k ⊆ l) : FrameBut l s t :=
  fun it hit => h it fun hk => hit (hkl hk)

/-- Two changes in a row change at most what either of them may. -/
theorem FrameBut.trans {k l : List Item} {s t u : State} (h : FrameBut k s t) (h' : FrameBut l t u) :
    FrameBut (k ++ l) s u := fun it hit =>
  (h it fun hk => hit (List.mem_append_left l hk)).trans (h' it fun hl => hit (List.mem_append_right k hl))

theorem FrameBut.refl (l : List Item) (s : State) : FrameBut l s s := fun it _ => SameItem.refl s it

theorem frameBut_setReg (s : State) (r : RegIdx) (b : Byte) : FrameBut [.regs] s (s.setReg r b) := by
  intro it h
  cases it <;> simp_all [SameItem]

theorem frameBut_setFlagThenReg (s : State) (f : Byte) (r : RegIdx) (b : Byte) :
    FrameBut [.regs] s (s.setFlagThenReg f r b) := by
  intro it h
  cases it <;> simp_all [SameItem]

theorem frameBut_loadBlock (s : State) (x : RegIdx) : FrameBut [.regs] s (s.loadBlock x) := by
  intro it h
  cases it <;> simp_all [SameItem, State.loadBlock]

theorem frameBut_setPc (s : State) (a : Addr) : FrameBut [.pc] s (s.setPc a) := by
  intro it h
  cases it <;> simp_all [SameItem]

theorem frameBut_setI (s : State) (a : Addr) : FrameBut [.index] s (s.setI a) := by
  intro it h
  cases it <;> simp_all [SameItem]

theorem frameBut_setDt (s : State) (b : Byte) : FrameBut [.delay] s (s.setDt b) := by
  intro it h
  cases it <;> simp_all [SameItem]

theorem frameBut_setSt (s : State) (b : Byte) : FrameBut [.sound] s (s.setSt b) := by
  intro it h
  cases it <;> simp_all [SameItem]

theorem frameBut_setMem (s : State) (m : Memory) : FrameBut [.memory] s (s.setMem m) := by
  intro it h
  cases it <;> simp_all [SameItem]

theorem frameBut_setKeyLatch (s : State) (k : Option KeyCode) : FrameBut [.key] s (s.setKeyLatch k) := by
  intro it h
  cases it <;> simp_all [SameItem]

theorem frameBut_setDisplay (s : State) (d : Display) : FrameBut [.screen, .dirty] s (s.setDisplay d) := by
  intro it h
  cases it <;> simp_all [SameItem]

theorem frameBut_render (s : State) : FrameBut [.dirty] s s.render.2 := by
  intro it h
  cases it <;> simp_all [SameItem, State.render]

theorem frameBut_draw (s : State) : FrameBut [.draws] s s.draw.2 := by
  intro it h
  cases it <;> simp_all [SameItem]

theorem frameBut_push {s t : State} {a : Addr} (h : s.push a = .ok t) : FrameBut [.stack] s t := by
  obtain ⟨hlt, rfl⟩ := State.push_ok h
  intro it hit
  cases it <;> simp_all [SameItem, State.reg]

theorem frameBut_pop {s t : State} {a : Addr} (h : s.pop = .ok (a, t)) : FrameBut [.stack] s t := by
  obtain ⟨hpos, rfl, rfl⟩ := State.pop_ok h
  intro it hit
  cases it <;> simp_all [SameItem, State.reg]

theorem frameBut_skipIf {s t : State} {c : Bool} (h : s.skipIf c = .next t) : FrameBut [.pc] s t := by
  rcases State.skipIf_eq_next h with ⟨-, -, rfl⟩ | ⟨-, rfl⟩
  · exact frameBut_setPc s _
  · exact FrameBut.refl _ _

/-- `LD F` that answers a next state changes I alone. -/
theorem execLdF_eq_next {x : RegIdx} {s t : State} (h : execLdF x s = .next t) : ∃ a, t = s.setI a := by
  unfold execLdF at h
  cases hg : glyphAddress (s.reg x) with
  | ok a => rw [hg] at h; cases h; exact ⟨a, rfl⟩
  | error q => rw [hg] at h; cases h

/-- `LD Vx, K` moves the pc back with an empty latch and writes the register with a full one. -/
theorem execLdVxK_eq_next {x : RegIdx} {s t : State} (h : execLdVxK x s = .next t) :
    (s.key = none ∧ t = s.setPc (s.pc - 2)) ∨ ∃ k, s.key = some k ∧ t = s.setReg x (k.setWidth 8) := by
  unfold execLdVxK at h
  cases hk : s.key with
  | none => rw [hk] at h; cases h; exact .inl ⟨rfl, rfl⟩
  | some k => rw [hk] at h; cases h; exact .inr ⟨k, rfl, rfl⟩

/-- The execute phase changes only the items table T-WRITERS lists for the instruction (rule R33). -/
theorem exec_frameBut {i : Instr} {s t : State} (h : exec i s = .next t) : FrameBut (itemsWritten i) s t := by
  cases i with
  | sys => cases h; exact FrameBut.refl _ _
  | jp => cases h; exact frameBut_setPc s _
  | ldI => cases h; exact frameBut_setI s _
  | ldDtVx => cases h; exact frameBut_setDt s _
  | ldStVx => cases h; exact frameBut_setSt s _
  | cls => cases h; exact frameBut_setDisplay s _
  | ldImm | addImm | ldReg | orReg | andReg | xorReg | ldVxDt => cases h; exact frameBut_setReg s _ _
  | addReg | subReg | shr | subnReg | shl => cases h; exact frameBut_setFlagThenReg s _ _ _
  | seImm | sneImm | seReg | sneReg | skp | sknp => exact frameBut_skipIf h
  | rnd => cases h; exact ((frameBut_draw s).trans (frameBut_setReg s.draw.2 _ _)).mono (by simp [itemsWritten])
  | jpV0 =>
    obtain ⟨a, -, hn⟩ := orRaise_eq_next h
    cases hn; exact frameBut_setPc s a
  | addI =>
    obtain ⟨a, -, hn⟩ := orRaise_eq_next h
    cases hn; exact frameBut_setI s a
  | ldB =>
    obtain ⟨a, -, hn⟩ := orRaise_eq_next h
    cases hn; exact frameBut_setMem s _
  | stRegs =>
    obtain ⟨a, -, hn⟩ := orRaise_eq_next h
    cases hn; exact (frameBut_setMem s _).trans (frameBut_setI _ a)
  | ldRegs x =>
    obtain ⟨a, -, hn⟩ := orRaise_eq_next h
    cases hn; exact (frameBut_loadBlock s x).trans (frameBut_setI _ a)
  | call =>
    obtain ⟨u, hu, hn⟩ := orRaise_eq_next h
    cases hn; exact ((frameBut_push hu).trans (frameBut_setPc u _)).mono (by simp [itemsWritten])
  | ret =>
    obtain ⟨⟨a, u⟩, hu, hn⟩ := orRaise_eq_next h
    cases hn; exact ((frameBut_pop hu).trans (frameBut_setPc u a)).mono (by simp [itemsWritten])
  | drw =>
    obtain ⟨r, -, hn⟩ := orRaise_eq_next h
    cases hn; exact ((frameBut_setDisplay s r.1).trans (frameBut_setReg _ _ _)).mono (by simp [itemsWritten])
  | ldF =>
    obtain ⟨a, rfl⟩ := execLdF_eq_next h
    exact frameBut_setI s a
  | ldVxK =>
    rcases execLdVxK_eq_next h with ⟨-, rfl⟩ | ⟨k, -, rfl⟩
    · exact (frameBut_setPc s _).mono (by simp [itemsWritten])
    · exact (frameBut_setReg s _ _).mono (by simp [itemsWritten])

theorem regsBut_setReg (s : State) (x : RegIdx) (b : Byte) : RegsBut [x] s (s.setReg x b) :=
  fun _ hr => s.setReg_reg_ne b (by simpa using hr)

theorem regsBut_setFlagThenReg (s : State) (f : Byte) (x : RegIdx) (b : Byte) :
    RegsBut [x, flagReg] s (s.setFlagThenReg f x b) := by
  intro r hr
  obtain ⟨hx, hf⟩ : r ≠ x ∧ r ≠ flagReg := by simpa using hr
  exact s.setFlagThenReg_reg_other f b hx hf

theorem regsBut_loadBlock (s : State) (x : RegIdx) : RegsBut (regsWritten (.ldRegs x)) s (s.loadBlock x) := by
  intro r hr
  have hgt : ¬ r.val ≤ x.val := by simpa [regsWritten] using hr
  rw [State.loadBlock_reg, if_neg hgt]

/-- The execute phase writes no general register but those table T-WRITERS lists for the instruction (rules
R20 and R21): an instruction that does not list the registers keeps them all by its frame. -/
theorem exec_regsBut {i : Instr} {s t : State} (h : exec i s = .next t) : RegsBut (regsWritten i) s t := by
  have hframe := exec_frameBut h
  cases i with
  | ldImm x | addImm x | ldReg x | orReg x | andReg x | xorReg x | ldVxDt x =>
    cases h; exact regsBut_setReg s x _
  | addReg x | subReg x | shr x | subnReg x | shl x => cases h; exact regsBut_setFlagThenReg s _ x _
  | rnd x => cases h; exact regsBut_setReg s.draw.2 x _
  | drw =>
    obtain ⟨r, -, hn⟩ := orRaise_eq_next h
    cases hn; exact regsBut_setReg (s.setDisplay r.1) flagReg _
  | ldRegs x =>
    obtain ⟨a, -, hn⟩ := orRaise_eq_next h
    cases hn; exact regsBut_loadBlock s x
  | ldVxK x =>
    rcases execLdVxK_eq_next h with ⟨-, rfl⟩ | ⟨k, -, rfl⟩
    · exact fun _ _ => rfl
    · exact regsBut_setReg s x _
  | cls | ret | sys | jp | call | seImm | sneImm | seReg | sneReg | ldI | jpV0 | skp | sknp | ldDtVx | ldStVx
  | addI | ldF | ldB | stRegs => exact fun r _ => hframe .regs (by simp [itemsWritten]) r

/-- A step changes only the pc and what its instruction lists. -/
theorem step_frame {s t : State} (h : step s = .next t) : ∃ op i, s.fetch = .ok op ∧ decode op = .ok i ∧
    FrameBut (.pc :: itemsWritten i) s t ∧ RegsBut (regsWritten i) s t := by
  obtain ⟨op, i, hf, hd, -, he⟩ := step_eq_next h
  exact ⟨op, i, hf, hd, (frameBut_setPc s _).trans (exec_frameBut he), fun r hr => exec_regsBut he r hr⟩

/-- No instruction writes the key latch (rule R216). -/
theorem key_not_mem_itemsWritten (i : Instr) : .key ∉ itemsWritten i := by
  cases i <;> simp [itemsWritten]

/-- The latch is the only item table T-WRITERS denies to every step. -/
theorem mem_hostItems_step {it : Item} : it ∈ hostItems .step ↔ it ≠ .key := by
  cases it <;> decide

/-- A host operation changes only the items table T-WRITERS lists for it. -/
theorem applyOp_frameBut {op : HostOp} {s t : State} (h : applyOp s op = .next t) :
    FrameBut (hostItems op) s t := by
  cases op with
  | step =>
    obtain ⟨_, i, -, -, hframe, -⟩ := step_frame h
    refine hframe.mono fun it hit => mem_hostItems_step.mpr ?_
    rintro rfl
    rcases List.mem_cons.mp hit with hpc | hi
    · cases hpc
    · exact key_not_mem_itemsWritten i hi
  | tick => cases h; exact (frameBut_setDt s _).trans (frameBut_setSt _ _)
  | setKey | clearKey => cases h; exact frameBut_setKeyLatch s _
  | render => cases h; exact frameBut_render s

/-- Settles O5, by the frames of the host operations and of the execute phase. -/
theorem onlyListedWritersWrite : Obligations.OnlyListedWritersWrite :=
  ⟨fun _ _ _ => applyOp_frameBut, fun _ _ => step_frame⟩

/-! ## The invariant of reachable states -/

/-- The invariant speaks of the memory and the stack alone. -/
theorem State.Inv.of_same {s t : State} (h : s.Inv) (hmem : t.mem = s.mem) (hsp : t.sp = s.sp)
    (hstack : t.stack = s.stack) : t.Inv := by
  unfold State.Inv State.StackLive at *
  rwa [hmem, hsp, hstack]

theorem State.Inv.setMem {s : State} (h : s.Inv) {m : Memory} (hm : m.wf) : (s.setMem m).Inv := ⟨hm, h.2⟩

/-- A push of an address a CALL can push keeps the live entries in range. -/
theorem State.Inv.push {s t : State} {a : Addr} (h : s.Inv) (ha : 2 ≤ a.toNat) (hp : s.push a = .ok t) :
    t.Inv := by
  obtain ⟨hlt, rfl⟩ := State.push_ok hp
  obtain ⟨hmem, hlive⟩ := h
  refine ⟨hmem, fun j hj => ?_⟩
  show 2 ≤ ((s.stack.set s.sp.val a hlt)[j.val]).toNat
  rw [Vector.getElem_set]
  split
  · exact ha
  · next hne =>
    have : j.val < s.sp.val + 1 := hj
    exact hlive j (by omega)

/-- A pop only shortens the live part of the stack. -/
theorem State.Inv.pop {s t : State} {a : Addr} (h : s.Inv) (hp : s.pop = .ok (a, t)) : t.Inv := by
  obtain ⟨_, -, rfl⟩ := State.pop_ok hp
  obtain ⟨hmem, hlive⟩ := h
  refine ⟨hmem, fun j hj => hlive j ?_⟩
  have : j.val < s.sp.val - 1 := hj
  omega

theorem State.Inv.skipIf {s t : State} {c : Bool} (h : s.Inv) (hs : s.skipIf c = .next t) : t.Inv := by
  rcases State.skipIf_eq_next hs with ⟨-, -, rfl⟩ | ⟨-, rfl⟩
  · exact h.of_same rfl rfl rfl
  · exact h

/-- The execute phase keeps the invariant from a pc that was advanced (rule R35): only `LD B`, `LD [I]`,
`CALL` and `RET` touch what it speaks of. -/
theorem exec_keeps_inv {i : Instr} {s t : State} (hs : s.Inv) (hpc : 2 ≤ s.pc.toNat)
    (h : exec i s = .next t) : t.Inv := by
  cases i with
  | ldB | stRegs =>
    obtain ⟨_, -, hn⟩ := orRaise_eq_next h
    cases hn; exact hs.setMem (Memory.writeBlock_wf hs.1 _ _)
  | call =>
    obtain ⟨u, hu, hn⟩ := orRaise_eq_next h
    cases hn; exact (hs.push hpc hu).of_same rfl rfl rfl
  | ret =>
    obtain ⟨⟨_, u⟩, hu, hn⟩ := orRaise_eq_next h
    cases hn; exact (hs.pop hu).of_same rfl rfl rfl
  | jpV0 | drw | addI | ldRegs =>
    obtain ⟨_, -, hn⟩ := orRaise_eq_next h
    cases hn; exact hs.of_same rfl rfl rfl
  | seImm | sneImm | seReg | sneReg | skp | sknp => exact hs.skipIf h
  | ldF =>
    obtain ⟨_, rfl⟩ := execLdF_eq_next h
    exact hs.of_same rfl rfl rfl
  | ldVxK =>
    rcases execLdVxK_eq_next h with ⟨-, rfl⟩ | ⟨_, -, rfl⟩
    · exact hs.of_same rfl rfl rfl
    · exact hs.of_same rfl rfl rfl
  | cls | sys | jp | ldImm | addImm | ldReg | orReg | andReg | xorReg | addReg | subReg | shr | subnReg | shl
  | ldI | rnd | ldVxDt | ldDtVx | ldStVx => cases h; exact hs.of_same rfl rfl rfl

/-- A step keeps the invariant: the advance that comes before the execute phase leaves the pc at 2 or
higher. -/
theorem step_keeps_inv {s t : State} (hs : s.Inv) (h : step s = .next t) : t.Inv := by
  obtain ⟨_, _, -, -, hpc, he⟩ := step_eq_next h
  have hinv : (s.setPc (s.pc + 2)).Inv := hs.of_same rfl rfl rfl
  have hadv : 2 ≤ (s.pc + 2).toNat := by simp only [BitVec.toNat_add, BitVec.reduceToNat]; omega
  exact exec_keeps_inv hinv hadv he

/-- Settles O7: `step` keeps the invariant, and the other operations touch neither memory nor stack. -/
theorem everyOperationKeepsInvariant : Obligations.EveryOperationKeepsInvariant := by
  intro op s t hs h
  cases op with
  | step => exact step_keeps_inv hs h
  | tick | setKey | clearKey | render => cases h; exact hs.of_same rfl rfl rfl

/-- Settles O6: the stack of the reset state has no live entry. -/
theorem resetMeetsInvariant : Obligations.ResetMeetsInvariant :=
  ⟨State.reset_mem_wf, fun j hj => absurd hj (Nat.not_lt_zero j.val)⟩

/-- A run keeps the invariant. -/
theorem runOps_keeps_inv {ops : List HostOp} {s t : State} (hs : s.Inv) (h : runOps s ops = .next t) :
    t.Inv := by
  induction ops generalizing s with
  | nil => cases h; exact hs
  | cons op ops ih =>
    rw [runOps] at h
    cases hop : applyOp s op with
    | next u => rw [hop] at h; exact ih (everyOperationKeepsInvariant op s u hs hop) h
    | fault f => rw [hop] at h; cases h
    | refused q => rw [hop] at h; cases h

/-! ## Construction -/

/-- The memory `construct` makes: the font at 0x000, then the program at `PROG_BASE` (rules R28 and R231). -/
def constructedMemory (font : Font) (program : List Byte) : Memory :=
  (State.reset.mem.writeBlock 0x000 font.toList).writeBlock Config.progBase program

theorem construct_of_le {font : Font} {program : List Byte} (h : program.length ≤ 3584) :
    construct font program = .next (State.reset.setMem (constructedMemory font program)) := if_pos h

theorem construct_of_gt {font : Font} {program : List Byte} (h : 3584 < program.length) :
    construct font program = .refused (.programTooLong program.length) := if_neg (Nat.not_le.mpr h)

/-- A construction that answers made the reset state with the constructed memory. -/
theorem construct_eq_next {font : Font} {program : List Byte} {s : State}
    (h : construct font program = .next s) : s = State.reset.setMem (constructedMemory font program) := by
  by_cases hl : program.length ≤ 3584
  · rw [construct_of_le hl] at h; cases h; rfl
  · rw [construct_of_gt (Nat.not_le.mp hl)] at h; cases h

theorem constructedMemory_wf (font : Font) (program : List Byte) : (constructedMemory font program).wf :=
  Memory.writeBlock_wf (Memory.writeBlock_wf State.reset_mem_wf _ _) _ _

/-- Settles O8: every construction meets the invariant and every run keeps it. -/
theorem everyRunMeetsInvariant : Obligations.EveryRunMeetsInvariant := by
  intro font program s t ops hc hr
  have hs : s.Inv := construct_eq_next hc ▸ resetMeetsInvariant.setMem (constructedMemory_wf font program)
  exact runOps_keeps_inv hs hr

/-- Above the font an address that nothing has written reads as the fill byte (rule R27). -/
theorem unlisted_of_ge {a : Nat} (h : 80 ≤ a) : Config.unlisted a = 0x00 :=
  List.getD_eq_default _ _ h

section ConstructedMemory

variable {font : Font} {program : List Byte} (hfit : program.length ≤ 3584)

include hfit

/-- Below and above the program the font's writes show. -/
theorem read_constructedMemory_outside {a : Addr}
    (ha : a.toNat < 0x200 ∨ 0x200 + program.length ≤ a.toNat) :
    (constructedMemory font program).read a = (State.reset.mem.writeBlock 0x000 font.toList).read a := by
  have hbase : Config.progBase.toNat = 0x200 := rfl
  exact Memory.read_writeBlock_outside _ _ _ _ (by omega) (by omega)

theorem read_constructedMemory_font (j : Nat) (h : j < 80) :
    (constructedMemory font program).read (BitVec.ofNat 12 j) = font[j] := by
  have hj : (BitVec.ofNat 12 j).toNat = j := by rw [BitVec.toNat_ofNat]; omega
  rw [read_constructedMemory_outside hfit (by omega),
    Memory.read_writeBlock_inside _ _ _ _ j (by simp) (by simpa using h) (by simp [hj])]
  exact Vector.getElem_toList _

theorem read_constructedMemory_program (j : Nat) (h : j < program.length) :
    (constructedMemory font program).read (BitVec.ofNat 12 (0x200 + j)) = program[j] := by
  have hbase : Config.progBase.toNat = 0x200 := rfl
  have hj : (BitVec.ofNat 12 (0x200 + j)).toNat = 0x200 + j := by rw [BitVec.toNat_ofNat]; omega
  exact Memory.read_writeBlock_inside _ _ _ _ j (by omega) h (by omega)

theorem read_constructedMemory_fill {a : Addr} (hfont : 80 ≤ a.toNat)
    (ha : a.toNat < 0x200 ∨ 0x200 + program.length ≤ a.toNat) :
    (constructedMemory font program).read a = 0x00 := by
  rw [read_constructedMemory_outside hfit ha,
    Memory.read_writeBlock_outside _ _ _ _ (by simp) (.inr (by simpa using hfont))]
  exact unlisted_of_ge hfont

end ConstructedMemory

theorem State.reset_reg (r : RegIdx) : State.reset.reg r = 0x00 := by
  simp [State.reg, State.reset]

/-- Settles O3: the constructed memory byte by byte, and the other items as the reset state has them. -/
theorem constructGivesResetTable : Obligations.ConstructGivesResetTable := by
  intro font program
  refine ⟨fun hfit => ⟨_, construct_of_le hfit, State.reset_reg, rfl, rfl, rfl, rfl, rfl, rfl,
    fun x y => ⟨Plane.get_blank x y, Plane.get_blank x y⟩, ?_, ?_, ?_⟩, construct_of_gt⟩
  · exact read_constructedMemory_font hfit
  · exact read_constructedMemory_program hfit
  · exact fun _ hfont ha => read_constructedMemory_fill hfit hfont ha

/-! ## The call stack, case by case -/

/-- A push below the capacity. -/
theorem State.push_of_lt {s : State} (a : Addr) (h : s.sp.val < 16) :
    s.push a = .ok { s with stack := s.stack.set s.sp.val a h, sp := ⟨s.sp.val + 1, by omega⟩ } := dif_pos h

/-- A push on a full stack. -/
theorem State.push_of_full {s : State} (a : Addr) (h : ¬s.sp.val < 16) : s.push a = .error .stackOverflow :=
  dif_neg h

/-- A pop of the top entry. -/
theorem State.pop_of_ne_zero {s : State} (h : s.sp.val ≠ 0) :
    s.pop = .ok (s.stack[s.sp.val - 1]'(by omega), { s with sp := ⟨s.sp.val - 1, by omega⟩ }) := dif_neg h

/-- A pop of an empty stack. -/
theorem State.pop_of_empty {s : State} (h : s.sp.val = 0) : s.pop = .error .stackUnderflow := dif_pos h

/-! ## What no step can see -/

/-- The state with other values in what a program cannot see: the stack slots, of which only the dead ones
are to differ, the sound timer and the dirty set (rule R36). -/
def State.withHidden (s : State) (stack : Vector Addr 16) (st : Byte) (dirty : Plane) : State :=
  { s with stack := stack, st := st, dirty := dirty }

@[simp] theorem State.withHidden_reg (s : State) (stack : Vector Addr 16) (st : Byte) (dirty : Plane)
    (r : RegIdx) : (s.withHidden stack st dirty).reg r = s.reg r := rfl

@[simp] theorem State.withHidden_key (s : State) (stack : Vector Addr 16) (st : Byte) (dirty : Plane) :
    (s.withHidden stack st dirty).key = s.key := rfl

/-- The slots of `stack` that are live in `s` are those of `s`. -/
def State.LiveAs (s : State) (stack : Vector Addr 16) : Prop :=
  ∀ j : Fin 16, j.val < s.sp.val → s.stack[j.val] = stack[j.val]

/-- A state agrees with every overwriting of its hidden part that keeps the live slots. -/
theorem State.sameVisible_withHidden {s : State} {stack : Vector Addr 16} {st : Byte} {dirty : Plane}
    (h : s.LiveAs stack) : s.SameVisible (s.withHidden stack st dirty) :=
  ⟨rfl, rfl, rfl, rfl, h, rfl, rfl, rfl, rfl, rfl⟩

/-- A state that agrees with `s` is such an overwriting. -/
theorem State.SameVisible.exists_withHidden {s t : State} (h : s.SameVisible t) :
    ∃ stack st dirty, s.LiveAs stack ∧ t = s.withHidden stack st dirty := by
  obtain ⟨hv, hpc, hi, hsp, hlive, hdt, hmem, hfb, hkey, hdraws⟩ := h
  refine ⟨t.stack, t.st, t.dirty, hlive, ?_⟩
  simp only [State.withHidden, hv, hpc, hi, hsp, hdt, hmem, hfb, hkey, hdraws]

/-- The same computation followed by continuations with the same outcome has the same outcome. -/
theorem sameOutcome_orRaise {α : Type} {r : Except Fault α} {f g : α → Result}
    (h : ∀ a, SameOutcome (f a) (g a)) : SameOutcome (orRaise r f) (orRaise r g) := by
  cases r with
  | ok a => exact h a
  | error e => exact rfl

/-- What a program sees of a display and the collision so far: not the dirty set. -/
def SamePixels (a b : Display × Bool) : Prop := a.1.fb = b.1.fb ∧ a.2 = b.2

theorem SamePixels.toggleCell {a b : Display × Bool} (h : SamePixels a b) (p : Fin 64 × Fin 32) :
    SamePixels (toggleCell a p) (toggleCell b p) := by
  obtain ⟨hfb, hhit⟩ := h
  simp only [SamePixels, Machine.toggleCell, hfb, hhit, and_self]

theorem SamePixels.drawByte {a b : Display × Bool} (h : SamePixels a b) (c : Byte) (x y : Nat) :
    SamePixels (Display.drawByte c x y a) (Display.drawByte c x y b) := by
  rw [drawByte_eq_foldl, drawByte_eq_foldl]
  exact List.foldl_rel h fun p _ _ _ hp => hp.toggleCell p

/-- Drawing from the same pixels goes on with the same pixels and the same collision, or faults alike. -/
theorem SamePixels.drawRows {m : Memory} {base : Addr} {x y left row : Nat} {a b : Display × Bool}
    (h : SamePixels a b) {f g : Display × Bool → Result}
    (hfg : ∀ c d, SamePixels c d → SameOutcome (f c) (g d)) :
    SameOutcome (orRaise (drawRows m base x y left row a) f) (orRaise (drawRows m base x y left row b) g) := by
  induction left generalizing row a b with
  | zero => exact hfg a b h
  | succ left ih =>
    by_cases hr : base.toNat + row ≤ 0xFFF
    · rw [drawRows_succ_of_le hr, drawRows_succ_of_le hr]
      exact ih (h.drawByte _ _ _)
    · rw [drawRows_succ_of_gt (by omega), drawRows_succ_of_gt (by omega)]
      exact rfl

section Hidden

variable {s : State} {stack : Vector Addr 16} {st : Byte} {dirty : Plane} (hlive : s.LiveAs stack)

include hlive

theorem sameOutcome_skipIf (c : Bool) :
    SameOutcome (s.skipIf c) ((s.withHidden stack st dirty).skipIf c) := by
  cases c with
  | false => exact State.sameVisible_withHidden hlive
  | true =>
    exact sameOutcome_orRaise (r := addrAdd s.pc 2) fun _ => State.sameVisible_withHidden hlive

/-- The slot that a push makes live holds the same address on both sides. -/
theorem State.LiveAs.push {a : Addr} (hlt : s.sp.val < 16) :
    State.LiveAs { s with stack := s.stack.set s.sp.val a hlt, sp := ⟨s.sp.val + 1, by omega⟩ }
      (stack.set s.sp.val a hlt) := by
  intro j hj
  have hj : j.val < s.sp.val + 1 := hj
  show (s.stack.set s.sp.val a hlt)[j.val] = (stack.set s.sp.val a hlt)[j.val]
  rw [Vector.getElem_set, Vector.getElem_set]
  split
  · rfl
  · next hne => exact hlive j (by omega)

theorem sameOutcome_execCall (nnn : Addr) :
    SameOutcome (execCall nnn s) (execCall nnn (s.withHidden stack st dirty)) := by
  unfold execCall
  by_cases hlt : s.sp.val < 16
  · rw [State.push_of_lt _ hlt, State.push_of_lt (s := s.withHidden stack st dirty) _ hlt]
    exact State.sameVisible_withHidden (hlive.push hlt)
  · rw [State.push_of_full _ hlt, State.push_of_full (s := s.withHidden stack st dirty) _ hlt]
    exact rfl

/-- A pop reads a live slot, so the address is the same on both sides; the slot it leaves is dead. -/
theorem sameOutcome_execRet : SameOutcome (execRet s) (execRet (s.withHidden stack st dirty)) := by
  unfold execRet
  by_cases hzero : s.sp.val = 0
  · rw [State.pop_of_empty hzero, State.pop_of_empty (s := s.withHidden stack st dirty) hzero]
    exact rfl
  · rw [State.pop_of_ne_zero hzero, State.pop_of_ne_zero (s := s.withHidden stack st dirty) hzero]
    have hlt : s.sp.val - 1 < s.sp.val := by omega
    have htop : s.stack[s.sp.val - 1]'(by omega) = stack[s.sp.val - 1]'(by omega) :=
      hlive ⟨s.sp.val - 1, by omega⟩ hlt
    have hrest : ∀ j : Fin 16, j.val < s.sp.val - 1 → s.stack[j.val] = stack[j.val] :=
      fun j hj => hlive j (by omega)
    exact ⟨rfl, htop, rfl, rfl, hrest, rfl, rfl, rfl, rfl, rfl⟩

theorem sameOutcome_execLdF (x : RegIdx) :
    SameOutcome (execLdF x s) (execLdF x (s.withHidden stack st dirty)) := by
  unfold execLdF
  rw [State.withHidden_reg]
  cases glyphAddress (s.reg x) with
  | ok a => exact State.sameVisible_withHidden hlive
  | error q => exact rfl

theorem sameOutcome_execLdVxK (x : RegIdx) :
    SameOutcome (execLdVxK x s) (execLdVxK x (s.withHidden stack st dirty)) := by
  unfold execLdVxK
  rw [State.withHidden_key]
  cases s.key with
  | none => exact State.sameVisible_withHidden hlive
  | some k => exact State.sameVisible_withHidden hlive

theorem sameOutcome_execDrw (x y : RegIdx) (n : Fin 16) :
    SameOutcome (execDrw x y n s) (execDrw x y n (s.withHidden stack st dirty)) := by
  have hstart : SamePixels (s.display, false) ((s.withHidden stack st dirty).display, false) := ⟨rfl, rfl⟩
  refine hstart.drawRows ?_
  rintro ⟨⟨fb, _⟩, hit⟩ ⟨⟨_, _⟩, _⟩ ⟨rfl, rfl⟩
  exact State.sameVisible_withHidden hlive

/-- The execute phase neither reads nor makes visible what is hidden: it writes the same on both sides, or
goes on alike from the same computed value. A write of anything visible and an overwriting of the hidden part
commute by computation, so both sides stay a state and its overwriting. -/
theorem sameOutcome_exec (i : Instr) : SameOutcome (exec i s) (exec i (s.withHidden stack st dirty)) := by
  cases i with
  | call nnn => exact sameOutcome_execCall hlive nnn
  | ret => exact sameOutcome_execRet hlive
  | ldF x => exact sameOutcome_execLdF hlive x
  | ldVxK x => exact sameOutcome_execLdVxK hlive x
  | drw x y n => exact sameOutcome_execDrw hlive x y n
  | seImm | sneImm | seReg | sneReg | skp | sknp => exact sameOutcome_skipIf hlive _
  | jpV0 | addI | ldB | stRegs | ldRegs =>
    exact sameOutcome_orRaise fun _ => State.sameVisible_withHidden hlive
  | cls | sys | jp | ldImm | addImm | ldReg | orReg | andReg | xorReg | addReg | subReg | shr | subnReg | shl
  | ldI | rnd | ldVxDt | ldDtVx | ldStVx => exact State.sameVisible_withHidden hlive

end Hidden

/-- The phases of a step as one chain: fetch, decode, advance, execute (rule R100). -/
theorem step_eq_orRaise (s : State) :
    step s = orRaise s.fetch fun op => orRaise (s.decodeAt op) fun i =>
      orRaise (addrAdd s.pc 2) fun a => exec i (s.setPc a) := by
  unfold step State.prepare State.advance
  cases s.fetch with
  | error f => rfl
  | ok op =>
    simp only [orRaise_ok]
    cases s.decodeAt op with
    | error f => rfl
    | ok i =>
      simp only [orRaise_ok]
      cases addrAdd s.pc 2 with
      | error f => rfl
      | ok a => exact finishStep_eq _

/-- Settles O9: the phases before the execute phase read nothing hidden, and the execute phase keeps the
agreement. -/
theorem stepIgnoresHiddenState : Obligations.StepIgnoresHiddenState := by
  intro s t h
  obtain ⟨stack, st, dirty, hlive, rfl⟩ := h.exists_withHidden
  rw [step_eq_orRaise, step_eq_orRaise]
  exact sameOutcome_orRaise fun op => sameOutcome_orRaise fun i => sameOutcome_orRaise fun a =>
    sameOutcome_exec (s := s.setPc a) hlive i

end Sys2Proof.Machine

/-! The statements about the memory: the byte order of an opcode and the fetch of a stored one
(spec/20_memory.md). -/

namespace Sys2Proof.Machine

/-- Where memory holds an opcode's two bytes, the more significant at the pc, the fetch gives that opcode
(rule R50). -/
theorem State.fetch_of_bytes {s : State} {op : Opcode} (hle : s.pc.toNat ≤ 0xFFE)
    (hhigh : s.mem.read s.pc = highByte op) (hlow : s.mem.read (s.pc + 1) = lowByte op) :
    s.fetch = .ok op := by
  rw [State.fetch_of_le hle, hhigh, hlow, joinBytes_split]

/-- Settles O11: the write of the low byte at pc + 1 leaves the high byte at the pc as it was written. -/
theorem storedOpcodeIsFetched : Obligations.StoredOpcodeIsFetched := by
  intro s op hle
  have hne : s.pc ≠ s.pc + 1 := by bv_omega
  refine State.fetch_of_bytes hle ?_ (Memory.read_write_same _ _ _)
  calc ((s.mem.write s.pc (highByte op)).write (s.pc + 1) (lowByte op)).read s.pc
      = (s.mem.write s.pc (highByte op)).read s.pc := Memory.read_write_ne _ _ hne
    _ = highByte op := Memory.read_write_same _ _ _

/-- Settles O10: a fetch that answers joined the two bytes, and each half of a joined opcode is the byte it
came from. -/
theorem fetchIsBigEndian : Obligations.FetchIsBigEndian := by
  refine ⟨fun s op hfetch => ?_, fun s hpc hhigh hlow => ?_⟩
  · obtain ⟨-, rfl⟩ := State.fetch_ok hfetch
    exact ⟨highByte_join _ _, lowByte_join _ _⟩
  · have hle : s.pc.toNat ≤ 0xFFE := by rw [hpc]; decide
    refine State.fetch_of_bytes hle ?_ ?_
    · rw [hpc, hhigh]; rfl
    · rw [hpc]; exact hlow

end Sys2Proof.Machine

/-! The statements about the encoding: decode and encode agree, and which opcodes decode to nothing
(spec/30_encoding.md). -/

namespace Sys2Proof

/-! Decoding an encoded instruction. -/

/-- The words of family 0x0 that are not 00E0 or 00EE decode to SYS (rules R74 and R75). -/
theorem decode_packNNN_zero {nnn : Addr} (h : sysOperandFree nnn = true) :
    decode (packNNN 0x0 nnn) = .ok (.sys nnn) := by
  obtain ⟨hcls, hret⟩ : nnn ≠ 0x0E0 ∧ nnn ≠ 0x0EE := by simpa [sysOperandFree] using h
  have packed_ne (op : Opcode) (ha : nnn ≠ fieldNNN op) : packNNN 0x0 nnn ≠ op := fun e =>
    ha (by rw [← e, fieldNNN_packNNN (by decide)])
  rw [decode, if_neg (packed_ne 0x00E0 hcls), if_neg (packed_ne 0x00EE hret)]
  simp [decodeFamily]

/-- `encode` is a right inverse of `decode`, one case per row of table T-OPCODES: outside family 0x0 the family
nibble of the packed word picks the row, and its fields give the operands back. -/
theorem decode_encode {i : Instr} (h : i.wellFormed = true) : decode (encode i) = .ok i := by
  cases i with
  | cls | ret => rfl
  | sys nnn => exact decode_packNNN_zero h
  | jp | call | ldI | jpV0 | seImm | sneImm | ldImm | addImm | rnd | seReg | sneReg | drw =>
    simp [encode, decode_eq_decodeFamily, decodeFamily]
  | ldReg | orReg | andReg | xorReg | addReg | subReg | shr | subnReg | shl =>
    simp [encode, decode_eq_decodeFamily, decodeFamily, decodeAlu]
  | skp | sknp => simp [encode, decode_eq_decodeFamily, decodeFamily, decodeKey]
  | ldVxDt | ldVxK | ldDtVx | ldStVx | addI | ldF | ldB | stRegs | ldRegs =>
    simp [encode, decode_eq_decodeFamily, decodeFamily, decodeMisc]

/-- Settles O13, one case per constructor. -/
theorem decodeOfEncode : Obligations.DecodeOfEncode := fun _ => decode_encode

/-! Encoding a decoded instruction: an opcode is packed again from its family and fields. -/

theorem packNNN_fields {op : Opcode} {f : Nat} (hf : familyOf op = f) : packNNN f (fieldNNN op) = op := by
  have := op.isLt
  rw [familyOf_eq] at hf
  exact BitVec.eq_of_toNat_eq (by rw [packNNN_toNat (by omega), fieldNNN_toNat]; omega)

theorem packXKK_fields {op : Opcode} {f : Nat} {kk : Byte} (hf : familyOf op = f)
    (hkk : (fieldKK op).toNat = kk.toNat) : packXKK f (fieldX op) kk = op := by
  have := op.isLt
  rw [familyOf_eq] at hf
  rw [fieldKK_toNat] at hkk
  exact BitVec.eq_of_toNat_eq (by rw [packXKK_toNat (by omega), fieldX_val]; omega)

theorem packXYN_fields {op : Opcode} {f : Nat} {n : Fin 16} (hf : familyOf op = f)
    (hn : (fieldN op).val = n.val) : packXYN f (fieldX op) (fieldY op) n = op := by
  have := op.isLt
  rw [familyOf_eq] at hf
  rw [fieldN_val] at hn
  exact BitVec.eq_of_toNat_eq (by rw [packXYN_toNat (by omega), fieldX_val, fieldY_val]; omega)

theorem encode_of_decodeAlu {op : Opcode} {i : Instr} (hf : familyOf op = 0x8) (h : decodeAlu op = .ok i) :
    encode i = op ∧ i.wellFormed = true := by
  unfold decodeAlu at h
  split at h <;> cases h
  all_goals exact ⟨packXYN_fields hf ‹_›, rfl⟩

theorem encode_of_decodeKey {op : Opcode} {i : Instr} (hf : familyOf op = 0xE) (h : decodeKey op = .ok i) :
    encode i = op ∧ i.wellFormed = true := by
  unfold decodeKey at h
  split at h <;> cases h
  all_goals exact ⟨packXKK_fields hf ‹_›, rfl⟩

theorem encode_of_decodeMisc {op : Opcode} {i : Instr} (hf : familyOf op = 0xF) (h : decodeMisc op = .ok i) :
    encode i = op ∧ i.wellFormed = true := by
  unfold decodeMisc at h
  split at h <;> cases h
  all_goals exact ⟨packXKK_fields hf ‹_›, rfl⟩

/-- A word of family 0x0 that is not 00E0 or 00EE has an operand that SYS may have. -/
theorem sysOperandFree_fieldNNN {op : Opcode} (hf : familyOf op = 0x0) (hcls : op ≠ 0x00E0)
    (hret : op ≠ 0x00EE) : sysOperandFree (fieldNNN op) = true := by
  have field_ne {a : Addr} (ha : op ≠ packNNN 0x0 a) : fieldNNN op ≠ a := fun e =>
    ha (by rw [← e, packNNN_fields hf])
  simpa [sysOperandFree] using ⟨field_ne hcls, field_ne hret⟩

/-- `encode` gives back the opcode that the choice by the family decoded, save for the two opcodes that never
reach it. -/
theorem encode_of_decodeFamily {op : Opcode} {i : Instr} (hcls : op ≠ 0x00E0) (hret : op ≠ 0x00EE)
    (h : decodeFamily op = .ok i) : encode i = op ∧ i.wellFormed = true := by
  unfold decodeFamily at h
  split at h
  -- 0nnn
  case h_1 hf => cases h; exact ⟨packNNN_fields hf, sysOperandFree_fieldNNN hf hcls hret⟩
  -- 1nnn, 2nnn, Annn, Bnnn
  case h_2 hf | h_3 hf | h_11 hf | h_12 hf => cases h; exact ⟨packNNN_fields hf, rfl⟩
  -- 3xkk, 4xkk, 6xkk, 7xkk, Cxkk
  case h_4 hf | h_5 hf | h_7 hf | h_8 hf | h_13 hf => cases h; exact ⟨packXKK_fields hf rfl, rfl⟩
  -- 5xy0, 9xy0
  case h_6 hf | h_10 hf =>
    split at h
    case isTrue hn => cases h; exact ⟨packXYN_fields hf hn, rfl⟩
    case isFalse => cases h
  -- 8xyn
  case h_9 hf => exact encode_of_decodeAlu hf h
  -- Dxyn
  case h_14 hf => cases h; exact ⟨packXYN_fields hf rfl, rfl⟩
  -- Exkk
  case h_15 hf => exact encode_of_decodeKey hf h
  -- Fxkk
  case h_16 hf => exact encode_of_decodeMisc hf h
  case h_17 => cases h

/-- `encode` is a left inverse of `decode` on the opcodes that decode, and what they decode to is well formed. -/
theorem encode_of_decode {op : Opcode} {i : Instr} (h : decode op = .ok i) :
    encode i = op ∧ i.wellFormed = true := by
  unfold decode at h
  split_ifs at h with hcls hret
  · cases h; exact ⟨hcls.symm, rfl⟩
  · cases h; exact ⟨hret.symm, rfl⟩
  · exact encode_of_decodeFamily hcls hret h

/-- Settles O14: two opcodes of one instruction are both its encoding. -/
theorem encodeOfDecode : Obligations.EncodeOfDecode :=
  ⟨fun _ _ => encode_of_decode, fun _ _ _ hp hq => (encode_of_decode hp).1.symm.trans (encode_of_decode hq).1⟩

/-! The opcodes that decode to nothing, table T-ILLEGAL (rule R79). -/

/-- Only five families reject: 0x5 and 0x9 by their low nibble, the others by their own tables. -/
theorem decodeFamily_eq_illegal_iff (op : Opcode) : decodeFamily op = .error (.illegalOpcode op) ↔
    (familyOf op = 0x5 ∧ (fieldN op).val ≠ 0) ∨
    (familyOf op = 0x8 ∧ decodeAlu op = .error (.illegalOpcode op)) ∨
    (familyOf op = 0x9 ∧ (fieldN op).val ≠ 0) ∨
    (familyOf op = 0xE ∧ decodeKey op = .error (.illegalOpcode op)) ∨
    (familyOf op = 0xF ∧ decodeMisc op = .error (.illegalOpcode op)) := by
  have hlt : familyOf op < 16 := (op.extractLsb' 12 4).isLt
  unfold decodeFamily
  split
  case h_17 => simp only [imp_false] at *; omega -- no nibble is above 0xF
  all_goals simp [*]

/-- The two fixed opcodes are of family 0x0, which rejects nothing. -/
theorem decode_eq_illegal_iff (op : Opcode) :
    decode op = .error (.illegalOpcode op) ↔ decodeFamily op = .error (.illegalOpcode op) := by
  by_cases h : familyOf op = 0x0
  · have hdecode : decode op ≠ .error (.illegalOpcode op) := by
      unfold decode
      split_ifs <;> simp [decodeFamily, h]
    simp [hdecode, decodeFamily, h]
  · rw [decode_eq_decodeFamily h]

theorem decodeAlu_eq_illegal_iff (op : Opcode) : decodeAlu op = .error (.illegalOpcode op) ↔
    (fieldN op).val ∈ [0x8, 0x9, 0xA, 0xB, 0xC, 0xD, 0xF] := by
  unfold decodeAlu
  split
  case h_10 => simp only [imp_false] at *; simp; omega
  all_goals simp [*]

theorem decodeKey_eq_illegal_iff (op : Opcode) : decodeKey op = .error (.illegalOpcode op) ↔
    (fieldKK op).toNat ∉ [0x9E, 0xA1] := by
  unfold decodeKey
  split <;> simp_all

theorem decodeMisc_eq_illegal_iff (op : Opcode) : decodeMisc op = .error (.illegalOpcode op) ↔
    (fieldKK op).toNat ∉ [0x07, 0x0A, 0x15, 0x18, 0x1E, 0x29, 0x33, 0x55, 0x65] := by
  unfold decodeMisc
  split <;> simp_all

/-- Settles O15: the rejections of the five families, each read as the numbers of a row of table T-ILLEGAL. -/
theorem illegalOpcodesExactly : Obligations.IllegalOpcodesExactly := by
  intro op
  refine ⟨?_, fun _ => decode_error⟩
  rw [decode_eq_illegal_iff, decodeFamily_eq_illegal_iff, decodeAlu_eq_illegal_iff,
    decodeKey_eq_illegal_iff, decodeMisc_eq_illegal_iff]
  simp only [List.mem_cons, List.not_mem_nil, ne_eq, ← BitVec.toNat_inj]
  rfl

/-! The words written out from table T-OPCODES (rule R76). -/

theorem decode_of_encode_eq {op : Opcode} {i : Instr} (hop : encode i = op) (h : i.wellFormed = true) :
    decode op = .ok i := hop ▸ decode_encode h

/-- A row's word with the operand x alone: `c` is the table's match column, the family and the low byte. -/
theorem decode_rowX {i : Instr} {f c : Nat} {x : RegIdx} {kk : Byte} (hi : encode i = packXKK f x kk)
    (hc : c = f * 0x1000 + kk.toNat) (h : i.wellFormed = true) :
    decode (BitVec.ofNat 16 (c + x.val * 0x100)) = .ok i :=
  decode_of_encode_eq (by rw [hi, packXKK, hc, Nat.add_right_comm]) h

/-- A row's word with the operands x and y: `c` is the table's match column, the family and the low nibble. -/
theorem decode_rowXY {i : Instr} {f c : Nat} {x y : RegIdx} {n : Fin 16} (hi : encode i = packXYN f x y n)
    (hc : c = f * 0x1000 + n.val) (h : i.wellFormed = true) :
    decode (BitVec.ofNat 16 (c + x.val * 0x100 + y.val * 0x10)) = .ok i :=
  decode_of_encode_eq (by rw [hi, packXYN, hc, Nat.add_right_comm _ n.val, Nat.add_right_comm _ n.val]) h

/-- Settles O59: each row's word is the encoding of the row's instruction. The rows stand in the statement's
order, by operands: none, nnn, x and kk, x and y, all three, x. -/
theorem tablePatternsDecode : Obligations.TablePatternsDecode := by
  intro nnn x y kk n
  have hsys (hcls : nnn ≠ 0x0E0) (hret : nnn ≠ 0x0EE) : decode (BitVec.ofNat 16 nnn.toNat) = .ok (.sys nnn) :=
    decode_of_encode_eq (by simp [encode, packNNN]) (by simpa [Instr.wellFormed, sysOperandFree] using ⟨hcls, hret⟩)
  exact ⟨rfl, rfl, hsys,
    decode_of_encode_eq rfl rfl, decode_of_encode_eq rfl rfl,
    decode_of_encode_eq rfl rfl, decode_of_encode_eq rfl rfl,
    decode_of_encode_eq rfl rfl, decode_of_encode_eq rfl rfl, decode_of_encode_eq rfl rfl,
    decode_of_encode_eq rfl rfl, decode_of_encode_eq rfl rfl,
    decode_rowXY rfl rfl rfl, decode_rowXY rfl rfl rfl, decode_rowXY rfl rfl rfl, decode_rowXY rfl rfl rfl,
    decode_rowXY rfl rfl rfl, decode_rowXY rfl rfl rfl, decode_rowXY rfl rfl rfl, decode_rowXY rfl rfl rfl,
    decode_rowXY rfl rfl rfl, decode_rowXY rfl rfl rfl, decode_rowXY rfl rfl rfl,
    decode_of_encode_eq rfl rfl,
    decode_rowX rfl rfl rfl, decode_rowX rfl rfl rfl, decode_rowX rfl rfl rfl, decode_rowX rfl rfl rfl,
    decode_rowX rfl rfl rfl, decode_rowX rfl rfl rfl, decode_rowX rfl rfl rfl, decode_rowX rfl rfl rfl,
    decode_rowX rfl rfl rfl, decode_rowX rfl rfl rfl, decode_rowX rfl rfl rfl⟩

/-- Settles O12: each word is closed, and the decoder runs on it. -/
theorem sampleOpcodesDecode : Obligations.SampleOpcodesDecode := by
  unfold Obligations.SampleOpcodesDecode
  and_intros <;> rfl

end Sys2Proof

/-! The statements about the step cycle: its phases, where it completes and what it leaves alone
(spec/40_step_cycle.md). -/

namespace Sys2Proof.Machine

/-! ## The outcome of a step, phase by phase -/

/-- At the last address the fetch decides (rule R101). -/
theorem step_of_last {s : State} (h : s.pc.toNat = 0xFFF) : step s = .fault (.addressRange 0x1000) := by
  rw [step_eq_orRaise, State.fetch_of_last h, orRaise_error]

theorem State.decodeAt_of_decode (s : State) {op : Opcode} {i : Instr} (h : decode op = .ok i) :
    s.decodeAt op = .ok i := by
  rw [State.decodeAt, h]

theorem State.decodeAt_of_illegal (s : State) {op : Opcode} (h : ∀ i, decode op ≠ .ok i) :
    s.decodeAt op = .error (.decodeError op s.pc) := by
  unfold State.decodeAt
  cases hd : decode op with
  | ok i => exact absurd hd (h i)
  | error e => rfl

/-- An opcode that decodes to nothing decides before the advance can (rule R102). -/
theorem step_of_illegal {s : State} {op : Opcode} (hf : s.fetch = .ok op) (hd : ∀ i, decode op ≠ .ok i) :
    step s = .fault (.decodeError op s.pc) := by
  rw [step_eq_orRaise, hf, orRaise_ok, s.decodeAt_of_illegal hd, orRaise_error]

/-- At the last address but one the advance decides, whatever the decoded instruction (rule R103). -/
theorem step_of_last_but_one {s : State} {op : Opcode} {i : Instr} (hf : s.fetch = .ok op)
    (hd : decode op = .ok i) (hp : s.pc.toNat = 0xFFE) : step s = .fault (.addressRange 0x1000) := by
  rw [step_eq_orRaise, hf, orRaise_ok, s.decodeAt_of_decode hd, orRaise_ok, addrAdd_of_gt (by omega),
    orRaise_error, hp]

/-! ## The items that few instructions write (table T-WRITERS) -/

theorem delay_mem_itemsWritten {i : Instr} (h : .delay ∈ itemsWritten i) : ∃ x, i = .ldDtVx x := by
  cases i with
  | ldDtVx x => exact ⟨x, rfl⟩
  | _ => simp [itemsWritten] at h

theorem sound_mem_itemsWritten {i : Instr} (h : .sound ∈ itemsWritten i) : ∃ x, i = .ldStVx x := by
  cases i with
  | ldStVx x => exact ⟨x, rfl⟩
  | _ => simp [itemsWritten] at h

theorem dirty_mem_itemsWritten {i : Instr} (h : .dirty ∈ itemsWritten i) :
    i = .cls ∨ ∃ x y n, i = .drw x y n := by
  cases i with
  | cls => exact .inl rfl
  | drw x y n => exact .inr ⟨x, y, n, rfl⟩
  | _ => simp [itemsWritten] at h

section Exec

variable {i : Instr} {s t : State} (h : exec i s = .next t)

include h

/-- The execute phase changes DT only by Fx15, to the register's value (rules R25 and R214). -/
theorem exec_delay_changed (hne : t.dt ≠ s.dt) : ∃ x, i = .ldDtVx x ∧ t.dt = s.reg x := by
  have hmem : .delay ∈ itemsWritten i := by_contra fun hn => hne (exec_frameBut h .delay hn)
  obtain ⟨x, rfl⟩ := delay_mem_itemsWritten hmem
  cases h
  exact ⟨x, rfl, rfl⟩

/-- The execute phase changes ST only by Fx18, to the register's value (rules R26 and R215). -/
theorem exec_sound_changed (hne : t.st ≠ s.st) : ∃ x, i = .ldStVx x ∧ t.st = s.reg x := by
  have hmem : .sound ∈ itemsWritten i := by_contra fun hn => hne (exec_frameBut h .sound hn)
  obtain ⟨x, rfl⟩ := sound_mem_itemsWritten hmem
  cases h
  exact ⟨x, rfl, rfl⟩

/-- The execute phase takes nothing out of the dirty set: CLS and DRW add to it, and no other instruction
writes it (rules R30, R191 and R193). -/
theorem exec_dirty_grows {x : Fin 64} {y : Fin 32} (hd : Plane.get s.dirty x y = true) :
    Plane.get t.dirty x y = true := by
  by_cases hmem : .dirty ∈ itemsWritten i
  · obtain rfl | ⟨rx, ry, n, rfl⟩ := dirty_mem_itemsWritten hmem
    · cases h
      simp [Display.clear, hd]
    · obtain ⟨r, hr, hn⟩ := orRaise_eq_next h
      obtain ⟨-, hdirty, -⟩ := drawRows_ok (by omega) hr
      cases hn
      simp [hdirty, hd]
  · exact (exec_frameBut h .dirty hmem x y).trans hd

end Exec

/-- No step touches the key latch (rules R106 and R216, decision D6). -/
theorem step_keeps_key {s t : State} (h : step s = .next t) : t.key = s.key :=
  applyOp_frameBut (op := .step) h .key (by decide)

/-- Settles O16: one clause per phase, in the order of the phases. -/
theorem stepRunsDecodedInstruction : Obligations.StepRunsDecodedInstruction := fun _ =>
  ⟨step_of_last, fun _ => step_of_illegal, fun _ _ => step_of_last_but_one, fun _ _ => step_of_decode⟩

/-- Settles O17: a step that answers got past the advance. -/
theorem nothingCompletesAboveFFD : Obligations.NothingCompletesAboveFFD := by
  intro s t h
  obtain ⟨-, -, -, -, hp, -⟩ := step_eq_next h
  exact hp

/-- Settles O18: the execute phase is what a step can change these items by, since the advance before it
writes the pc alone. -/
theorem stepLeavesTimersAndLatch : Obligations.StepLeavesTimersAndLatch := by
  intro s t h
  obtain ⟨op, i, hf, hd, -, he⟩ := step_eq_next h
  refine ⟨step_keeps_key h, fun _ _ => exec_dirty_grows he, fun hne => ?_, fun hne => ?_⟩
  · obtain ⟨x, rfl, hdt⟩ := exec_delay_changed he hne
    exact ⟨op, x, hf, hd, hdt⟩
  · obtain ⟨x, rfl, hst⟩ := exec_sound_changed he hne
    exact ⟨op, x, hf, hd, hst⟩

end Sys2Proof.Machine

/-! The statements about control flow: the jumps, the call stack and the register skips
(spec/41_control_flow.md). -/

namespace Sys2Proof.Machine

open Sys2Proof.Claims

/-! ## Steps over a known instruction -/

/-- The advance of a pc that can execute does not wrap (rule R103). -/
theorem toNat_add_two {a : Addr} (h : a.toNat ≤ 0xFFD) : (a + 2).toNat = a.toNat + 2 := by bv_omega

/-- The frame of a step whose instruction is known: the pc and what table T-WRITERS lists (rule R33). -/
theorem step_frameBut_of_decode {s t : State} {op : Opcode} {i : Instr} (hf : s.fetch = .ok op)
    (hd : decode op = .ok i) (h : step s = .next t) : FrameBut (.pc :: itemsWritten i) s t := by
  obtain ⟨op', i', hf', hd', hframe, -⟩ := step_frame h
  cases hf.symm.trans hf'
  cases hd.symm.trans hd'
  exact hframe

/-- Above 0xFFD a phase before the execute phase faults (rules R101 to R103). -/
theorem step_faults_of_gt {s : State} (h : 0xFFD < s.pc.toNat) : ∃ f, step s = .fault f := by
  obtain ⟨-, hs⟩ | ⟨_, -, ⟨-, hs⟩ | ⟨_, -, ⟨-, hs⟩ | ⟨hle, -⟩⟩⟩ := step_cases s
  · exact ⟨_, hs⟩
  · exact ⟨_, hs⟩
  · exact ⟨_, hs⟩
  · omega

/-! ## SYS and the jumps -/

/-- Settles O19: a step over SYS is the advance alone. -/
theorem sysIsIgnored : Obligations.SysIsIgnored := by
  intro nnn s
  obtain ⟨-, -, hd, -⟩ := tablePatternsDecode nnn 0 0 0 0
  refine ⟨hd, ⟨s, rfl, FrameBut.refl _ _⟩, fun hcls hret hf hle => ?_⟩
  exact ⟨_, step_of_decode hf (hd hcls hret) hle, toNat_add_two hle, frameBut_setPc s _⟩

theorem decode_jpWord (nnn : Addr) : decode (BitVec.ofNat 16 (0x1000 + nnn.toNat)) = .ok (.jp nnn) :=
  decode_of_encode_eq rfl rfl

/-- A jump to its own address undoes the advance, which is all the step did before it (rule R122). -/
theorem step_of_finished {s : State} (h : s.Finished) : step s = .next s := by
  obtain ⟨hle, hf⟩ := h
  exact step_of_decode hf (decode_jpWord s.pc) hle

/-- Settles O21: the target is not checked by the jump, only by the next step. -/
theorem jumpSetsPc : Obligations.JumpSetsPc := fun nnn s =>
  ⟨decode_jpWord nnn, ⟨s.setPc nnn, rfl, rfl, frameBut_setPc s nnn, fun h => step_faults_of_gt h⟩,
    step_of_finished⟩

theorem exec_jpV0 (nnn : Addr) (s : State) :
    exec (.jpV0 nnn) s = orRaise (addrAdd nnn (s.reg 0).toNat) fun a => .next (s.setPc a) := rfl

/-- Settles O24, by the two cases of the bounded add of nnn and V0. -/
theorem jumpWithOffset : Obligations.JumpWithOffset := by
  intro nnn s
  refine ⟨decode_of_encode_eq rfl rfl, fun hle => ?_, fun hgt => ?_⟩
  · have hadd := addrAdd_of_le hle
    rw [exec_jpV0, hadd]
    exact ⟨_, rfl, (addrAdd_ok hadd).2, frameBut_setPc s _⟩
  · rw [exec_jpV0, addrAdd_of_gt hgt, orRaise_error]

/-! ## The register skips -/

/-- An instruction that is a conditional skip skips exactly where its condition holds (rule R105). -/
theorem skipsWhen_of_skipIf {i : Instr} {s : State} {c : Bool} {p : Prop} (hexec : exec i s = s.skipIf c)
    (hc : c = true ↔ p) : SkipsWhen i s p := by
  have htaken (hp : p) : exec i s = s.skip := by rw [hexec, hc.mpr hp]; rfl
  refine ⟨fun hp hle => ?_, fun hp hgt => ?_, fun hp => ?_⟩
  · refine ⟨_, (htaken hp).trans (State.skip_of_le hle), ?_, frameBut_setPc s _⟩
    exact (addrAdd_ok (addrAdd_of_le (by omega))).2
  · exact (htaken hp).trans (State.skip_of_gt hgt)
  · rw [hexec, Bool.eq_false_iff.mpr (mt hc.mp hp)]; rfl

/-- Settles O23: each of the four is a conditional skip on a comparison of bytes. -/
theorem registerSkips : Obligations.RegisterSkips := fun _ _ _ _ =>
  ⟨skipsWhen_of_skipIf rfl beq_iff_eq, skipsWhen_of_skipIf rfl bne_iff_ne,
    skipsWhen_of_skipIf rfl beq_iff_eq, skipsWhen_of_skipIf rfl bne_iff_ne⟩

/-! ## The call stack -/

/-- The state after a CALL that found `j` saved addresses (rule R123). -/
def State.called (s : State) (j : Fin 16) (nnn : Addr) : State :=
  { s with stack := s.stack.set j.val s.pc, sp := j.succ, pc := nnn }

/-- The state after a RET that found `j + 1` saved addresses (rule R121). -/
def State.returned (s : State) (j : Fin 16) : State := { s with sp := j.castSucc, pc := s.stack[j.val] }

theorem exec_call (nnn : Addr) (s : State) :
    exec (.call nnn) s = orRaise (s.push s.pc) fun t => .next (t.setPc nnn) := rfl

theorem exec_ret (s : State) : exec .ret s = orRaise s.pop fun r => .next (r.2.setPc r.1) := rfl

theorem exec_call_of_sp {s : State} {j : Fin 16} (nnn : Addr) (h : s.sp.val = j.val) :
    exec (.call nnn) s = .next (s.called j nnn) := by
  have hlt : s.sp.val < 16 := h ▸ j.isLt
  rw [exec_call, State.push_of_lt _ hlt]
  simp [State.called, State.setPc, h, Fin.succ]

theorem exec_ret_of_sp {s : State} {j : Fin 16} (h : s.sp.val = j.val + 1) :
    exec .ret s = .next (s.returned j) := by
  have hne : s.sp.val ≠ 0 := by omega
  rw [exec_ret, State.pop_of_ne_zero hne]
  simp [State.returned, State.setPc, h, Fin.castSucc, Fin.castAdd, Fin.castLE]

/-- Settles O20: the two cases of the pop. -/
theorem returnPopsOrUnderflows : Obligations.ReturnPopsOrUnderflows := by
  refine ⟨rfl, fun s => ⟨fun j hsp => ?_, fun hsp => ?_⟩⟩
  · have hexec := exec_ret_of_sp hsp
    exact ⟨_, hexec, rfl, rfl, fun _ => rfl, exec_frameBut hexec⟩
  · rw [exec_ret, State.pop_of_empty hsp, orRaise_error]

theorem decode_callWord (nnn : Addr) : decode (BitVec.ofNat 16 (0x2000 + nnn.toNat)) = .ok (.call nnn) :=
  decode_of_encode_eq rfl rfl

theorem State.called_stack_same (s : State) (j : Fin 16) (nnn : Addr) :
    (s.called j nnn).stack[j.val] = s.pc := Vector.getElem_set_self _

theorem State.called_stack_ne (s : State) {j k : Fin 16} (nnn : Addr) (h : k ≠ j) :
    (s.called j nnn).stack[k.val] = s.stack[k.val] :=
  Vector.getElem_set_ne j.isLt k.isLt fun e => h (Fin.ext e.symm)

/-- Settles O22: the two cases of the push. -/
theorem callPushesOrOverflows : Obligations.CallPushesOrOverflows := by
  refine fun nnn s => ⟨decode_callWord nnn, fun j hsp => ?_, fun hsp => ?_⟩
  · have hexec := exec_call_of_sp nnn hsp
    exact ⟨_, hexec, rfl, s.called_stack_same j nnn, fun _ => s.called_stack_ne nnn, rfl, exec_frameBut hexec⟩
  · rw [exec_call, State.push_of_full _ (by omega), orRaise_error]

/-- A step over a CALL, which saves the advanced pc. -/
theorem step_of_call {s : State} {nnn : Addr} {j : Fin 16}
    (hf : s.fetch = .ok (BitVec.ofNat 16 (0x2000 + nnn.toNat))) (hle : s.pc.toNat ≤ 0xFFD)
    (hsp : s.sp.val = j.val) : step s = .next ((s.setPc (s.pc + 2)).called j nnn) :=
  (step_of_decode hf (decode_callWord nnn) hle).trans (exec_call_of_sp nnn hsp)

/-- A step over a RET, whose own advance is lost. -/
theorem step_of_ret {s : State} {j : Fin 16} (hf : s.fetch = .ok 0x00EE) (hle : s.pc.toNat ≤ 0xFFD)
    (hsp : s.sp.val = j.val + 1) : step s = .next (s.returned j) :=
  (step_of_decode hf rfl hle).trans (exec_ret_of_sp hsp)

/-- Settles O25: the RET pops the slot the CALL wrote, which holds the advanced pc of the CALL. -/
theorem callThenReturn : Obligations.CallThenReturn := by
  intro s nnn hsp hpc hnnn hcall hret
  obtain ⟨j, hj⟩ : ∃ j : Fin 16, s.sp.val = j.val := ⟨⟨s.sp.val, hsp⟩, rfl⟩
  have hfirst := step_of_call hcall hpc hj
  -- the CALL leaves the pc at its target and the memory as it was, and a fetch reads no more than these
  have hfetch : ((s.setPc (s.pc + 2)).called j nnn).fetch = .ok 0x00EE := hret
  have hsecond := step_of_ret (j := j) hfetch hnnn rfl
  refine ⟨_, _, hfirst, hsecond, ?_, Fin.ext hj.symm, ?_⟩
  · calc ((s.setPc (s.pc + 2)).called j nnn).stack[j.val].toNat
        = (s.pc + 2).toNat := by rw [State.called_stack_same, State.setPc_pc]
      _ = s.pc.toNat + 2 := toNat_add_two hpc
  · exact ((step_frameBut_of_decode hcall (decode_callWord nnn) hfirst).trans
      (step_frameBut_of_decode hfetch rfl hsecond)).mono (by simp [itemsWritten])

end Sys2Proof.Machine

/-! The statements about register loads, arithmetic, logic, shifts and the random byte
(spec/42_load_alu.md). -/

namespace Sys2Proof.Machine

open Sys2Proof.Claims

/-! ## Instructions that write one register, or VF and then one register -/

theorem writesOneReg_of_setReg {i : Instr} {s : State} {x : RegIdx} {b : Byte} {value : Nat}
    (hexec : exec i s = .next (s.setReg x b)) (hb : b.toNat = value) : WritesOneReg i s x value :=
  ⟨_, hexec, by rw [State.setReg_reg_same, hb], regsBut_setReg s x b, frameBut_setReg s x b⟩

/-- The flag is what VF ends with only where the destination is another register (rule R104 (b)). -/
theorem writesFlagAndReg_of_setFlagThenReg {i : Instr} {s : State} {x : RegIdx} {f b : Byte} {flag result : Nat}
    (hexec : exec i s = .next (s.setFlagThenReg f x b)) (hf : f.toNat = flag) (hb : b.toNat = result) :
    WritesFlagAndReg i s x flag result := by
  refine ⟨_, hexec, ?_, fun hx => ?_, regsBut_setFlagThenReg s f x b, frameBut_setFlagThenReg s f x b⟩
  · rw [State.setFlagThenReg_reg_dest, hb]
  · exact (congrArg BitVec.toNat (s.setFlagThenReg_reg_flag f b hx)).trans hf

/-! ## The flags and results as numbers -/

theorem flagByte_toNat (c : Bool) : (flagByte c).toNat = c.toNat := by
  cases c <;> rfl

/-- The flag of a comparison is the number a statement writes for it (rule R21). -/
theorem flagByte_decide_toNat (p : Prop) [Decidable p] : (flagByte (decide p)).toNat = if p then 1 else 0 := by
  rw [flagByte_toNat, Bool.toNat, Bool.cond_decide]

theorem carryFlag_toNat (a b : Byte) : (carryFlag a b).toNat = if 255 < a.toNat + b.toNat then 1 else 0 :=
  flagByte_decide_toNat _

theorem greaterFlag_toNat (a b : Byte) : (greaterFlag a b).toNat = if a.toNat > b.toNat then 1 else 0 :=
  flagByte_decide_toNat _

theorem lowBitFlag_toNat (a : Byte) : (lowBitFlag a).toNat = a.toNat % 2 := by
  rw [lowBitFlag, flagByte_toNat, BitVec.getLsbD, Nat.toNat_testBit, pow_zero, Nat.div_one]

theorem highBitFlag_toNat (a : Byte) : (highBitFlag a).toNat = a.toNat / 128 := by
  have hbit : (highBitFlag a).toNat = a.toNat / 2 ^ 7 % 2 := by
    rw [highBitFlag, flagByte_toNat, BitVec.getLsbD, Nat.toNat_testBit]
  have := a.isLt
  omega

/-- A difference of bytes, with the minuend first as rule R147 writes it. -/
theorem byte_toNat_sub (a b : Byte) : (a - b).toNat = (a.toNat + 256 - b.toNat) % 256 := by
  have := b.isLt
  rw [BitVec.toNat_sub]
  omega

theorem byte_toNat_shiftRight_one (a : Byte) : (a >>> 1).toNat = a.toNat / 2 := by
  rw [BitVec.toNat_ushiftRight, Nat.shiftRight_one]

theorem byte_toNat_shiftLeft_one (a : Byte) : (a <<< 1).toNat = a.toNat * 2 % 256 := by
  rw [BitVec.toNat_shiftLeft, Nat.shiftLeft_eq, pow_one]

/-! ## Loads, logic and arithmetic -/

/-- Settles O26: each of the five writes its value to Vx and does nothing else. -/
theorem loadsAndLogicWriteVx : Obligations.LoadsAndLogicWriteVx := fun _ _ _ _ =>
  ⟨writesOneReg_of_setReg rfl rfl, writesOneReg_of_setReg rfl rfl,
    writesOneReg_of_setReg rfl (BitVec.toNat_or ..), writesOneReg_of_setReg rfl (BitVec.toNat_and ..),
    writesOneReg_of_setReg rfl (BitVec.toNat_xor ..)⟩

/-- Settles O27: the addition of bytes is the addition modulo 256. -/
theorem addImmediateWraps : Obligations.AddImmediateWraps := fun _ _ _ =>
  writesOneReg_of_setReg rfl (BitVec.toNat_add ..)

/-- Settles O28: the carry and the low byte of the exact sum. -/
theorem addRegisterCarries : Obligations.AddRegisterCarries := fun _ _ _ =>
  writesFlagAndReg_of_setFlagThenReg rfl (carryFlag_toNat ..) (BitVec.toNat_ofNat ..)

/-- Settles O29: the two subtractions differ in the order of their operands alone. -/
theorem subtractionsBorrow : Obligations.SubtractionsBorrow := fun _ _ _ =>
  ⟨writesFlagAndReg_of_setFlagThenReg rfl (greaterFlag_toNat ..) (byte_toNat_sub ..),
    writesFlagAndReg_of_setFlagThenReg rfl (greaterFlag_toNat ..) (byte_toNat_sub ..)⟩

/-- Settles O30: the bit shifted out and the byte shifted are functions of Vx. -/
theorem shiftsByOne : Obligations.ShiftsByOne := fun _ _ _ =>
  ⟨writesFlagAndReg_of_setFlagThenReg rfl (lowBitFlag_toNat _) (byte_toNat_shiftRight_one _),
    writesFlagAndReg_of_setFlagThenReg rfl (highBitFlag_toNat _) (byte_toNat_shiftLeft_one _)⟩

/-! ## The random byte -/

theorem exec_rnd (x : RegIdx) (kk : Byte) (s : State) :
    exec (.rnd x kk) s = .next (s.draw.2.setReg x (Config.randomByte s.draws &&& kk)) := rfl

/-- Settles O31: the draw depends on the counter alone, which a write to Vx does not touch. -/
theorem randomUnderMask : Obligations.RandomUnderMask := by
  intro x kk s
  have hexec := exec_rnd x kk s
  refine ⟨_, hexec, State.setReg_reg_same .., rfl, fun b => ?_, fun j hj => ?_, exec_regsBut hexec,
    exec_frameBut hexec⟩
  · refine ⟨_, exec_rnd x kk (s.setReg x b), ?_⟩
    rw [State.setReg_reg_same, State.setReg_reg_same, State.setReg_draws]
  · rw [State.setReg_reg_same, BitVec.getLsbD_and, hj, Bool.and_false]

end Sys2Proof.Machine

/-! The statements about the index register and the memory instructions (spec/43_index_memory.md). -/

namespace Sys2Proof.Machine

/-! ## Instructions that write the index register alone -/

/-- Settles O32: the address in the word is one that I can hold. -/
theorem loadIndex : Obligations.LoadIndex := fun nnn s =>
  ⟨decode_of_encode_eq rfl rfl, s.setI nnn, rfl, rfl, frameBut_setI s nnn⟩

theorem exec_addI (x : RegIdx) (s : State) :
    exec (.addI x) s = orRaise (addrAdd s.i (s.reg x).toNat) fun a => .next (s.setI a) := rfl

/-- Settles O33, by the two cases of the bounded add of I and Vx. -/
theorem addToIndex : Obligations.AddToIndex := by
  intro x s
  refine ⟨fun hle => ?_, fun hgt => ?_⟩
  · have hadd := addrAdd_of_le hle
    rw [exec_addI, hadd]
    exact ⟨_, rfl, (addrAdd_ok hadd).2, frameBut_setI s _⟩
  · rw [exec_addI, addrAdd_of_gt hgt, orRaise_error]

theorem exec_ldF_of_le {x : RegIdx} {s : State} (h : (s.reg x).toNat ≤ 15) :
    exec (.ldF x) s = .next (s.setI (BitVec.ofNat 12 (5 * (s.reg x).toNat))) := by
  show execLdF x s = _
  rw [execLdF, glyphAddress_of_le h]

theorem exec_ldF_of_gt {x : RegIdx} {s : State} (h : 15 < (s.reg x).toNat) :
    exec (.ldF x) s = .refused (.unspecifiedGlyph (s.reg x)) := by
  show execLdF x s = _
  rw [execLdF, glyphAddress_of_gt h]

/-- Settles O34: the glyph address of a digit is at most 75, so I holds it as it is. (The obligation's own name
in lower case is the model's function.) -/
theorem loadGlyphAddress : Obligations.GlyphAddress := by
  intro x s
  refine ⟨fun hle => ⟨_, exec_ldF_of_le hle, ?_, frameBut_setI s _⟩, exec_ldF_of_gt⟩
  rw [State.setI_i, BitVec.toNat_ofNat]
  omega

/-! ## Blocks of memory at the index register -/

/-- A block of writes read back at an offset from its base (rule R176). -/
theorem Memory.read_writeBlock_offset (m : Memory) (a : Addr) {bs : List Byte} (j : Nat)
    (hfit : a.toNat + bs.length ≤ 0x1000) (hj : j < bs.length) :
    (m.writeBlock a bs).read (a + BitVec.ofNat 12 j) = bs[j] := by
  refine m.read_writeBlock_inside a _ bs j hfit hj ?_
  rw [BitVec.toNat_add, BitVec.toNat_ofNat]
  omega

/-- A block of writes at I touches no byte outside its extent. -/
theorem bytesBut_writeBlock {s t : State} {bs : List Byte} {n : Nat} (hn : bs.length = n)
    (hfit : s.i.toNat + n ≤ 0x1000) (hmem : t.mem = s.mem.writeBlock s.i bs) : BytesBut s.i.toNat n s t := by
  subst hn
  intro b hb
  rw [hmem]
  exact s.mem.read_writeBlock_outside s.i b bs hfit hb

/-! ## The decimal digits -/

theorem exec_ldB (x : RegIdx) (s : State) : exec (.ldB x) s =
    orRaise (addrAdd s.i 2) fun _ => .next (s.setMem (s.mem.writeBlock s.i (bcdDigits (s.reg x)))) := rfl

/-- The digits as numbers: each fits in its byte (rule R173). -/
theorem bcdDigits_toNat (b : Byte) :
    ((bcdDigits b)[0]).toNat = b.toNat / 100 ∧ ((bcdDigits b)[1]).toNat = b.toNat / 10 % 10 ∧
      ((bcdDigits b)[2]).toNat = b.toNat % 10 := by
  have hb := b.isLt
  have hfits {n : Nat} (h : n < 256) : (BitVec.ofNat 8 n).toNat = n := by
    rw [BitVec.toNat_ofNat, Nat.mod_eq_of_lt h]
  exact ⟨hfits (by omega), hfits (by omega), hfits (by omega)⟩

/-- Settles O35: the bytes at the offsets 0, 1 and 2 from I are the digits in order. -/
theorem storeDecimalDigits : Obligations.StoreDecimalDigits := by
  intro x s
  refine ⟨fun hle => ?_, fun hgt => ?_⟩
  · have hfit : s.i.toNat + 3 ≤ 0x1000 := by omega
    have hread (j : Nat) (hj : j < 3) := s.mem.read_writeBlock_offset s.i (bs := bcdDigits (s.reg x)) j hfit hj
    have hfirst := hread 0 (by decide)
    rw [BitVec.add_zero] at hfirst
    obtain ⟨hundreds, tens, ones⟩ := bcdDigits_toNat (s.reg x)
    rw [exec_ldB, addrAdd_of_le (by omega), orRaise_ok]
    exact ⟨_, rfl, (congrArg BitVec.toNat hfirst).trans hundreds,
      (congrArg BitVec.toNat (hread 1 (by decide))).trans tens,
      (congrArg BitVec.toNat (hread 2 (by decide))).trans ones,
      bytesBut_writeBlock (bcdDigits_length _) hfit rfl, frameBut_setMem s _⟩
  · rw [exec_ldB, addrAdd_of_gt (by omega), orRaise_error]

/-! ## The register blocks -/

/-- The state after a store of V0 to Vx that is in range. -/
def State.storedBlock (s : State) (x : RegIdx) (next : Addr) : State :=
  (s.setMem (s.mem.writeBlock s.i (s.regBlock x))).setI next

theorem exec_stRegs (x : RegIdx) (s : State) :
    exec (.stRegs x) s = orRaise (addrAdd s.i (x.val + 1)) fun a => .next (s.storedBlock x a) := rfl

theorem exec_ldRegs (x : RegIdx) (s : State) :
    exec (.ldRegs x) s = orRaise (addrAdd s.i (x.val + 1)) fun a => .next ((s.loadBlock x).setI a) := rfl

/-- After the store the bytes at I upward are the registers V0 to Vx (rule R174). -/
theorem State.storedBlock_read {s : State} {x j : RegIdx} (next : Addr)
    (hfit : s.i.toNat + x.val + 1 ≤ 0xFFF) (hj : j.val ≤ x.val) :
    (s.storedBlock x next).mem.read (s.i + BitVec.ofNat 12 j.val) = s.reg j := by
  have hlen : j.val < (s.regBlock x).length := by rw [State.regBlock_length]; omega
  calc (s.mem.writeBlock s.i (s.regBlock x)).read (s.i + BitVec.ofNat 12 j.val)
      = (s.regBlock x)[j.val] :=
        s.mem.read_writeBlock_offset s.i j.val (by rw [State.regBlock_length]; omega) hlen
    _ = s.reg j := s.regBlock_getElem x j hlen

/-- Settles O36, by the two cases of the bounded add of I and x + 1. -/
theorem storeRegisterBlock : Obligations.StoreRegisterBlock := by
  intro x s
  refine ⟨fun hle => ?_, fun hgt => ?_⟩
  · have hadd := addrAdd_of_le (k := x.val + 1) hle
    have hexec := exec_stRegs x s
    rw [hadd, orRaise_ok] at hexec
    exact ⟨_, hexec, fun _ => State.storedBlock_read _ hle, (addrAdd_ok hadd).2,
      bytesBut_writeBlock (s.regBlock_length x) (Nat.le_succ_of_le hle) rfl, exec_frameBut hexec⟩
  · rw [exec_stRegs, addrAdd_of_gt hgt, orRaise_error, Nat.add_assoc]

/-- Settles O37, by the two cases of the bounded add of I and x + 1. -/
theorem loadRegisterBlock : Obligations.LoadRegisterBlock := by
  intro x s
  refine ⟨fun hle => ?_, fun hgt => ?_⟩
  · have hadd := addrAdd_of_le (k := x.val + 1) hle
    have hexec := exec_ldRegs x s
    rw [hadd, orRaise_ok] at hexec
    refine ⟨_, hexec, fun j hj => ?_, fun j hj => ?_, (addrAdd_ok hadd).2, exec_frameBut hexec⟩
    · rw [State.setI_reg, State.loadBlock_reg, if_pos hj]
    · rw [State.setI_reg, State.loadBlock_reg, if_neg (Nat.not_le.mpr hj)]
  · rw [exec_ldRegs, addrAdd_of_gt hgt, orRaise_error, Nat.add_assoc]

/-- Settles O38: both instructions do the same bounded add, and the load reads the addresses the store wrote. -/
theorem storeThenLoadBlock : Obligations.StoreThenLoadBlock := by
  intro x s t u v hstore hmem hi hload
  rw [exec_stRegs] at hstore
  rw [exec_ldRegs, hi] at hload
  obtain ⟨next, hadd, hnext⟩ := orRaise_eq_next hstore
  rw [hadd, orRaise_ok] at hload
  cases hnext
  cases hload
  refine ⟨rfl, fun j => ?_⟩
  rw [State.setI_reg, State.loadBlock_reg, hmem, hi]
  split
  case isTrue hj => exact State.storedBlock_read next (addrAdd_ok hadd).1 hj
  case isFalse => rfl

end Sys2Proof.Machine

/-! The statements about the display: its two primitives, CLS and DRW (spec/44_display.md). -/

namespace Sys2Proof.Machine

/-! ## The primitives and CLS -/

/-- Settles O39: the wrapped coordinates are those given, and a flip and a mark change one bit. -/
theorem toggleFlipsOnePixel : Obligations.ToggleFlipsOnePixel := by
  intro d x y cx cy hx hy
  obtain rfl : wrapX x = cx := Fin.ext hx.symm
  obtain rfl : wrapY y = cy := Fin.ext hy.symm
  refine ⟨rfl, fun px py => ⟨Plane.get_flip d.fb px (wrapX x) py (wrapY y), ?_⟩⟩
  rw [Display.toggle, Plane.get_mark, Bool.or_eq_true, decide_eq_true_iff, or_comm]

/-- Settles O40: the blank plane has no bit, and the dirty set is a union. -/
theorem clearScreenMarksSetPixels : Obligations.ClearScreenMarksSetPixels := fun d px py =>
  ⟨Plane.get_blank px py, by rw [Display.clear, Plane.get_union, Bool.or_eq_true]⟩

theorem exec_cls (s : State) : exec .cls s = .next (s.setDisplay s.display.clear) := rfl

/-- Settles O41, by ClearScreen on the display of the state. -/
theorem clearInstruction : Obligations.ClearInstruction := fun s =>
  ⟨_, exec_cls s, clearScreenMarksSetPixels s.display, frameBut_setDisplay s _⟩

/-! ## What a draw that completes does -/

/-- The display and the hit after the rows of the sprite of Dxyn, or the fault of the first row that is not in
memory. -/
def State.drawSprite (s : State) (x y : RegIdx) (n : Fin 16) : Except Fault (Display × Bool) :=
  drawRows s.mem s.i (s.reg x).toNat (s.reg y).toNat n.val 0 (s.display, false)

theorem exec_drw (x y : RegIdx) (n : Fin 16) (s : State) :
    exec (.drw x y n) s = orRaise (s.drawSprite x y n) fun r =>
      .next ((s.setDisplay r.1).setReg flagReg (collisionFlag r.2)) := rfl

/-- The covered pixels are the ones the rows of the sprite toggle. -/
theorem spriteCovers_iff_mem_rowCells {s : State} {x y : RegIdx} {n : Fin 16} {cx : Fin 64} {cy : Fin 32} :
    SpriteCovers s x y n cx cy ↔
      (cx, cy) ∈ rowCells s.mem s.i (s.reg x).toNat (s.reg y).toNat n.val 0 := by
  have haddr (row : Nat) : BitVec.ofNat 12 (s.i.toNat + row) = s.i + BitVec.ofNat 12 row := by
    rw [BitVec.ofNat_add, BitVec.ofNat_toNat, BitVec.setWidth_eq]
  simp only [SpriteCovers, mem_rowCells, haddr, Prod.mk.injEq, Fin.ext_iff, wrapX, wrapY, Nat.zero_le,
    Nat.zero_add, true_and, eq_comm]

/-- Which pixels are covered depends on the operands and the memory alone. -/
theorem spriteCovers_congr {s u : State} {x y : RegIdx} (n : Fin 16) (hx : u.reg x = s.reg x)
    (hy : u.reg y = s.reg y) (hi : u.i = s.i) (hmem : ∀ a : Addr, u.mem.read a = s.mem.read a)
    (cx : Fin 64) (cy : Fin 32) : SpriteCovers u x y n cx cy ↔ SpriteCovers s x y n cx cy := by
  simp only [SpriteCovers, hx, hy, hi, hmem]

section

variable {x y : RegIdx} {n : Fin 16} {s t : State}

/-- A draw that completes leaves the display of its rows, and VF tells whether they hit a set pixel. -/
theorem exec_drw_eq_next (h : exec (.drw x y n) s = .next t) :
    ∃ r, s.drawSprite x y n = .ok r ∧ t.display = r.1 ∧ t.reg flagReg = flagByte r.2 := by
  obtain ⟨r, hr, hnext⟩ := orRaise_eq_next h
  cases hnext
  exact ⟨r, hr, rfl, State.setReg_reg_same ..⟩

theorem exec_drw_covered (h : exec (.drw x y n) s = .next t) {cx : Fin 64} {cy : Fin 32}
    (hc : SpriteCovers s x y n cx cy) :
    Plane.get t.fb cx cy = !Plane.get s.fb cx cy ∧ Plane.get t.dirty cx cy = true := by
  obtain ⟨r, hr, ht, -⟩ := exec_drw_eq_next h
  obtain ⟨hfb, hdirty, -⟩ := drawRows_ok (by omega) hr
  have hmem := spriteCovers_iff_mem_rowCells.mp hc
  rw [← State.display_fb t, ← State.display_dirty t, ht, hfb, hdirty, if_pos hmem, decide_eq_true hmem]
  exact ⟨rfl, rfl⟩

theorem exec_drw_uncovered (h : exec (.drw x y n) s = .next t) {cx : Fin 64} {cy : Fin 32}
    (hc : ¬SpriteCovers s x y n cx cy) :
    Plane.get t.fb cx cy = Plane.get s.fb cx cy ∧ Plane.get t.dirty cx cy = Plane.get s.dirty cx cy := by
  obtain ⟨r, hr, ht, -⟩ := exec_drw_eq_next h
  obtain ⟨hfb, hdirty, -⟩ := drawRows_ok (by omega) hr
  have hmem := mt spriteCovers_iff_mem_rowCells.mpr hc
  rw [← State.display_fb t, ← State.display_dirty t, ht, hfb, hdirty, if_neg hmem, decide_eq_false hmem]
  exact ⟨rfl, rfl⟩

/-- VF after a draw is the flag of one fact: some covered pixel was set before. -/
theorem exec_drw_flag (h : exec (.drw x y n) s = .next t) :
    ∃ hit : Bool, t.reg flagReg = flagByte hit ∧
      (hit = true ↔ ∃ cx cy, SpriteCovers s x y n cx cy ∧ Plane.get s.fb cx cy = true) := by
  obtain ⟨r, hr, -, hflag⟩ := exec_drw_eq_next h
  obtain ⟨-, -, hhit⟩ := drawRows_ok (by omega) hr
  refine ⟨r.2, hflag, ?_⟩
  simp only [hhit, spriteCovers_iff_mem_rowCells, Prod.exists, State.display_fb]

theorem exec_drw_flag_of_hit (h : exec (.drw x y n) s = .next t)
    (hset : ∃ cx cy, SpriteCovers s x y n cx cy ∧ Plane.get s.fb cx cy = true) : t.reg flagReg = 1 := by
  obtain ⟨hit, hflag, hhit⟩ := exec_drw_flag h
  rw [hflag, hhit.mpr hset]
  rfl

theorem exec_drw_flag_of_clear (h : exec (.drw x y n) s = .next t)
    (hclear : ∀ cx cy, SpriteCovers s x y n cx cy → Plane.get s.fb cx cy = false) : t.reg flagReg = 0 := by
  obtain ⟨hit, hflag, hhit⟩ := exec_drw_flag h
  have hmiss : hit = false := Bool.eq_false_iff.mpr fun htrue => by
    obtain ⟨cx, cy, hc, hset⟩ := hhit.mp htrue
    exact Bool.false_ne_true ((hclear cx cy hc).symm.trans hset)
  rw [hflag, hmiss]
  rfl

end

/-! ## DRW -/

/-- Settles O42: the rows that are in memory are drawn, and a draw that completes does what the sprite's pixels
say. -/
theorem drawIsXorWithCollision : Obligations.DrawIsXorWithCollision := by
  intro x y n s hfit
  obtain ⟨r, hr⟩ : ∃ r, s.drawSprite x y n = .ok r := drawRows_ok_iff.mpr hfit
  have hexec := exec_drw x y n s
  rw [hr, orRaise_ok] at hexec
  exact ⟨_, hexec, fun _ _ => ⟨exec_drw_covered hexec, exec_drw_uncovered hexec⟩,
    exec_drw_flag_of_hit hexec, exec_drw_flag_of_clear hexec, exec_regsBut hexec, exec_frameBut hexec⟩

/-- Settles O43: the rows cannot all be drawn, and the only fault of drawing is the address above memory. -/
theorem drawOutOfMemoryFaults : Obligations.DrawOutOfMemoryFaults := by
  intro x y n s hn hgt
  rw [exec_drw]
  cases hr : s.drawSprite x y n with
  | ok r =>
    have hfit := drawRows_ok_iff.mp ⟨r, hr⟩
    omega
  | error f => rw [drawRows_error (Nat.le_of_lt s.i.isLt) hr, orRaise_error]

/-- Settles O44: both draws cover the same pixels, so each of them is flipped twice and is set for the second
draw exactly where it was clear for the first. -/
theorem drawTwiceRestores : Obligations.DrawTwiceRestores := by
  intro x y n s t u v hfirst hfb hx hy hi hmem hsecond
  have hcovers := spriteCovers_congr n hx hy hi hmem
  have hflipped {cx : Fin 64} {cy : Fin 32} (hc : SpriteCovers s x y n cx cy) :
      Plane.get u.fb cx cy = !Plane.get s.fb cx cy := by
    rw [hfb, (exec_drw_covered hfirst hc).1]
  have hcollides : (∃ cx cy, SpriteCovers s x y n cx cy ∧ Plane.get s.fb cx cy = false) → v.reg 15 = 1 := by
    rintro ⟨cx, cy, hc, hclear⟩
    exact exec_drw_flag_of_hit hsecond ⟨cx, cy, (hcovers cx cy).mpr hc, by rw [hflipped hc, hclear]; rfl⟩
  refine ⟨fun cx cy => ?_, hcollides, ?_⟩
  · by_cases hc : SpriteCovers s x y n cx cy
    · rw [(exec_drw_covered hsecond ((hcovers cx cy).mpr hc)).1, hflipped hc, Bool.not_not]
    · rw [(exec_drw_uncovered hsecond (mt (hcovers cx cy).mp hc)).1, hfb, (exec_drw_uncovered hfirst hc).1]
  · rintro ⟨cx, cy, hc⟩ hclear
    exact ⟨exec_drw_flag_of_clear hfirst hclear, hcollides ⟨cx, cy, hc, hclear cx cy hc⟩⟩

end Sys2Proof.Machine

/-! The statements about the timers and the keyboard (spec/45_timer_key.md). -/

namespace Sys2Proof.Machine

/-! ## The key latch -/

/-- A key code read as a byte keeps its number (rule R210). -/
theorem keyByte_toNat (k : KeyCode) : (k.setWidth 8).toNat = k.toNat :=
  BitVec.toNat_setWidth_of_le (by decide)

/-- The whole byte is compared, so a byte above 0xF is no key (rule R210, decision D29). -/
theorem State.keyIs_iff (s : State) (b : Byte) : s.keyIs b = true ↔ ∃ k, s.key = some k ∧ k.toNat = b.toNat := by
  unfold State.keyIs
  cases s.key with
  | none => simp
  | some k =>
    simp only [beq_iff_eq, Option.some.injEq, exists_eq_left']
    rw [BitVec.toNat_eq, keyByte_toNat]

/-- Settles O45: both are conditional skips on the comparison with the latch, one on its negation. -/
theorem keySkips : Obligations.KeySkips := by
  intro x s
  have hkey := s.keyIs_iff (s.reg x)
  refine ⟨skipsWhen_of_skipIf rfl hkey, skipsWhen_of_skipIf rfl ?_⟩
  rw [Bool.not_eq_true', Bool.eq_false_iff, ne_eq, hkey]

/-! ## The wait for a key -/

theorem exec_ldVxK_of_none {x : RegIdx} {s : State} (h : s.key = none) :
    exec (.ldVxK x) s = .next (s.setPc (s.pc - 2)) := by
  show execLdVxK x s = _
  rw [execLdVxK, h]

theorem exec_ldVxK_of_some {x : RegIdx} {s : State} {k : KeyCode} (h : s.key = some k) :
    exec (.ldVxK x) s = .next (s.setReg x (k.setWidth 8)) := by
  show execLdVxK x s = _
  simp only [execLdVxK, h, State.afterKeyRead_eq]

/-- Settles O47: the two cases of the latch. -/
theorem keyReadWaitsOrStores : Obligations.KeyReadWaitsOrStores := by
  refine fun x s => ⟨fun hkey hpc => ?_, fun k hkey => ?_⟩
  · exact ⟨_, exec_ldVxK_of_none hkey, BitVec.toNat_sub_of_le hpc, frameBut_setPc s _⟩
  · exact writesOneReg_of_setReg (exec_ldVxK_of_some hkey) (keyByte_toNat k)

/-- Settles O49: the wait takes back the advance, which is all the step did before it (rule R286). -/
theorem emptyLatchSpins : Obligations.EmptyLatchSpins := by
  intro x s hkey hle hf
  have hadvanced : (s.setPc (s.pc + 2)).key = none := hkey
  calc step s
      = exec (.ldVxK x) (s.setPc (s.pc + 2)) := step_of_decode hf (decode_rowX rfl rfl rfl) hle
    _ = .next (s.setPc (s.pc + 2 - 2)) := exec_ldVxK_of_none hadvanced
    _ = .next s := by rw [BitVec.add_sub_cancel]; rfl

/-! ## The timers -/

/-- Settles O46: DT is copied to Vx. -/
theorem readDelayTimer : Obligations.ReadDelayTimer := fun _ _ =>
  ⟨decode_rowX rfl rfl rfl, writesOneReg_of_setReg rfl rfl⟩

/-- Settles O48: each load replaces its timer and leaves the other. -/
theorem loadTimers : Obligations.LoadTimers := fun _ s =>
  ⟨decode_rowX rfl rfl rfl, decode_rowX rfl rfl rfl, ⟨_, rfl, s.setDt_dt _, frameBut_setDt s _⟩,
    ⟨_, rfl, s.setSt_st _, frameBut_setSt s _⟩⟩

end Sys2Proof.Machine

/-! The statements about the host operations and the runs they make (spec/46_host_operations.md). -/

namespace Sys2Proof.Machine

/-! ## The timers and the latch -/

/-- One count down is the truncated subtraction (rule R232). -/
theorem countDown_toNat (b : Byte) : (countDown b).toNat = b.toNat - 1 := by
  unfold countDown
  split
  · next hzero => rw [hzero]; rfl
  · next hpos => bv_omega

/-- Settles O50: each timer counts down by its own write. -/
theorem tickSaturates : Obligations.TickSaturates := fun s =>
  ⟨countDown_toNat s.dt, countDown_toNat s.st, applyOp_frameBut (op := .tick) rfl⟩

theorem State.clearKey_of_none {s : State} (h : s.key = none) : s.clearKey = s := by
  rw [State.clearKey, ← h]
  rfl

/-- Settles O51: both are one write of the latch, so the later of two is all that is left. -/
theorem keyOperationsReplaceLatch : Obligations.KeyOperationsReplaceLatch := fun s k _ =>
  ⟨rfl, frameBut_setKeyLatch s (some k), rfl, rfl, frameBut_setKeyLatch s none, State.clearKey_of_none⟩

/-! ## Construction with the empty program -/

/-- Writing what unlisted addresses read as leaves a memory with no cells as it is (rule R27). -/
theorem Memory.writeBlock_nil_of_unlisted {a : Addr} {bs : List Byte} (hfit : a.toNat + bs.length < 4096)
    (h : ∀ (j : Nat) (hj : j < bs.length), bs[j] = Config.unlisted (a.toNat + j)) :
    Memory.writeBlock [] a bs = [] := by
  induction bs generalizing a with
  | nil => rfl
  | cons b bs ih =>
    rw [List.length_cons] at hfit
    have hnext : (a + 1).toNat = a.toNat + 1 := by bv_omega
    have hfirst : Memory.write [] a b = [] := if_pos (h 0 (Nat.zero_lt_succ _))
    rw [Memory.writeBlock, hfirst]
    refine ih (by omega) fun j hj => ?_
    rw [hnext, Nat.add_assoc, Nat.add_comm 1]
    exact h (j + 1) (Nat.succ_lt_succ hj)

/-- The default font is what the reset contents already are (rule R28, decision D16). -/
theorem writeBlock_fontBytes : Memory.writeBlock [] 0x000 Config.fontBytes = [] := by
  have hlength : Config.fontBytes.length = 80 := rfl
  refine Memory.writeBlock_nil_of_unlisted (by simp [hlength]) fun j hj => ?_
  rw [BitVec.ofNat_eq_ofNat, BitVec.toNat_ofNat, Nat.zero_mod, Nat.zero_add]
  exact (List.getD_eq_getElem _ _ hj).symm

/-- Settles O4: the construction writes nothing that the reset memory does not read as already. -/
theorem resetIsEmptyConstruct : Obligations.ResetIsEmptyConstruct := by
  unfold Obligations.ResetIsEmptyConstruct
  have hmem : constructedMemory Config.font [] = [] := by
    rw [constructedMemory, Memory.writeBlock]
    exact writeBlock_fontBytes
  rw [construct_of_le (Nat.zero_le _), hmem]
  rfl

/-! ## The dirty set and render -/

theorem State.mem_renderSet {s : State} {x : Fin 64} {y : Fin 32} {b : Bool} :
    (x, y, b) ∈ s.renderSet ↔ Plane.get s.dirty x y = true ∧ Plane.get s.fb x y = b := by
  simp only [State.renderSet, Finset.mem_image, Finset.mem_filter, Finset.mem_univ, true_and, Prod.exists,
    Prod.mk.injEq]
  constructor
  · rintro ⟨_, _, hdirty, rfl, rfl, hb⟩
    exact ⟨hdirty, hb⟩
  · rintro ⟨hdirty, hb⟩
    exact ⟨x, y, hdirty, rfl, rfl, hb⟩

theorem State.render_clean (s : State) (x : Fin 64) (y : Fin 32) : Plane.get s.render.2.dirty x y = false :=
  Plane.get_blank x y

/-- Where nothing is dirty there is nothing to yield. -/
theorem State.renderSet_of_clean {s : State} (h : ∀ x y, Plane.get s.dirty x y = false) :
    s.renderSet = ∅ := by
  rw [State.renderSet, Finset.filter_false_of_mem fun p _ => Bool.eq_false_iff.mp (h p.1 p.2),
    Finset.image_empty]

/-- Settles O52: what a render yields follows the dirty set, which it empties. -/
theorem renderDrainsDirty : Obligations.RenderDrainsDirty := fun s =>
  ⟨fun _ _ _ => State.mem_renderSet, s.render_clean, frameBut_render s,
    State.renderSet_of_clean s.render_clean⟩

/-- An instruction that may change the screen may change the dirty set (table T-WRITERS). -/
theorem dirty_mem_itemsWritten_of_screen {i : Instr} (h : .screen ∈ itemsWritten i) :
    .dirty ∈ itemsWritten i := by
  cases i with
  | cls | drw => simp [itemsWritten]
  | _ => simp [itemsWritten] at h

/-- A pixel that the execute phase changes is one that CLS cleared or a sprite covers, and both are marked
(rules R191 and R193). -/
theorem exec_changed_pixel_dirty {i : Instr} {s t : State} {x : Fin 64} {y : Fin 32} (h : exec i s = .next t)
    (hne : Plane.get t.fb x y ≠ Plane.get s.fb x y) : Plane.get t.dirty x y = true := by
  have hmem : .screen ∈ itemsWritten i := by_contra fun hn => hne (exec_frameBut h .screen hn x y)
  obtain rfl | ⟨rx, ry, n, rfl⟩ := dirty_mem_itemsWritten (dirty_mem_itemsWritten_of_screen hmem)
  · obtain ⟨hclear, hdirty⟩ := clearScreenMarksSetPixels s.display x y
    cases h
    have hset : Plane.get s.fb x y = true := Bool.of_not_eq_false fun hfalse => hne (hclear.trans hfalse.symm)
    exact hdirty.mpr (.inr hset)
  · by_cases hc : SpriteCovers s rx ry n x y
    · exact (exec_drw_covered h hc).2
    · exact absurd (exec_drw_uncovered h hc).1 hne

/-- Settles O53: the advance before the execute phase leaves the screen. -/
theorem everyPixelChangeIsDirty : Obligations.EveryPixelChangeIsDirty := by
  intro s t x y h hne
  obtain ⟨_, _, -, -, -, he⟩ := step_eq_next h
  exact exec_changed_pixel_dirty he hne

/-! ## Infinite runs -/

/-- Every host operation but `step` has a next state (rule R237). -/
theorem applyOp_succeeds {op : HostOp} (h : op ≠ .step) (s : State) : Succeeded (applyOp s op) := by
  cases op with
  | step => exact absurd rfl h
  | tick | setKey | clearKey | render => exact ⟨_, rfl⟩

/-- A finished program stays finished over one operation: the jump to itself changes nothing, and the other
operations write neither the pc nor the memory (rule R289). -/
theorem applyOp_of_finished {s : State} (h : s.Finished) (op : HostOp) :
    ∃ t, applyOp s op = .next t ∧ t.Finished := by
  cases op with
  | step => exact ⟨s, step_of_finished h, h⟩
  | tick | setKey | clearKey | render => exact ⟨_, rfl, h⟩

section InfiniteRun

variable (sched : Schedule) (s : State)

theorem runFor_eq_runOps (n : Nat) : runFor sched s n = runOps s (sched.firstOps n) := by
  induction n with
  | zero => rfl
  | succ n ih => rw [runFor_succ, ih, firstOps_succ, runOps_concat]

variable {sched s}

/-- The operation at which a run fails is a step (rule R237). -/
theorem step_of_runFor_fails {n : Nat} (hn : Succeeded (runFor sched s n))
    (hfail : ¬Succeeded (runFor sched s (n + 1))) : sched n = .step := by
  obtain ⟨t, ht⟩ := hn
  rw [runFor_succ, ht, thenOp_next] at hfail
  exact by_contra fun hop => hfail (applyOp_succeeds hop t)

theorem runFor_of_finished (h : s.Finished) (n : Nat) : ∃ t, runFor sched s n = .next t ∧ t.Finished := by
  induction n with
  | zero => exact ⟨s, rfl, h⟩
  | succ n ih =>
    obtain ⟨t, ht, hfin⟩ := ih
    rw [runFor_succ, ht, thenOp_next]
    exact applyOp_of_finished hfin (sched n)

end InfiniteRun

/-- Settles O60: an infinite run is at each position a finite one, so it keeps what finite runs keep. -/
theorem infiniteRuns : Obligations.InfiniteRuns := by
  intro sched s
  refine ⟨runFor_eq_runOps sched s, fun _ => step_of_runFor_fails, fun font program hc n t ht => ?_,
    fun hfin => ⟨fun n => ?_, fun n t ht => ?_⟩⟩
  · exact everyRunMeetsInvariant font program s t (sched.firstOps n) hc (runFor_eq_runOps sched s n ▸ ht)
  · obtain ⟨t, ht, -⟩ := runFor_of_finished hfin n
    exact ⟨t, ht⟩
  · obtain ⟨u, hu, hfinished⟩ := runFor_of_finished hfin n
    cases hu.symm.trans ht
    exact hfinished

end Sys2Proof.Machine

/-! The statements about the faults: which instruction raises which, and what a faulting step says
(spec/60_exceptions.md). -/

namespace Sys2Proof.Machine

/-! ## The faults of the execute phase -/

/-- An AddressRangeError with a number that a byte added to an address can reach (rules R250 and R254). -/
def Fault.IsRangeError (f : Fault) : Prop := ∃ v, f = .addressRange v ∧ 0x1000 ≤ v ∧ v ≤ 0x10FE

theorem addrAdd_error_isRangeError {a : Addr} {k : Nat} {f : Fault} (hk : k ≤ 0xFF)
    (h : addrAdd a k = .error f) : f.IsRangeError := by
  obtain ⟨hgt, rfl⟩ := addrAdd_error h
  exact ⟨_, rfl, by omega, by omega⟩

theorem skipIf_fault_isRangeError {s : State} {c : Bool} {f : Fault} (h : s.skipIf c = .fault f) :
    f.IsRangeError := by
  obtain ⟨-, hgt, rfl⟩ := State.skipIf_eq_fault h
  exact ⟨_, rfl, by omega, by omega⟩

theorem drawRows_error_isRangeError {m : Memory} {base : Addr} {x y left : Nat} {acc : Display × Bool}
    {f : Fault} (h : drawRows m base x y left 0 acc = .error f) : f.IsRangeError :=
  ⟨0x1000, drawRows_error (by omega) h, by decide, by decide⟩

/-- Where the continuation always answers, a fault is the computation's. -/
theorem error_of_orRaise_next {α : Type} {r : Except Fault α} {next : α → State} {f : Fault}
    (h : orRaise r (fun a => .next (next a)) = .fault f) : r = .error f := by
  obtain hr | ⟨_, -, hn⟩ := orRaise_eq_fault h
  · exact hr
  · cases hn

theorem execLdF_ne_fault (x : RegIdx) (s : State) (f : Fault) : execLdF x s ≠ .fault f := by
  unfold execLdF
  cases glyphAddress (s.reg x) <;> exact nofun

theorem execLdVxK_ne_fault (x : RegIdx) (s : State) (f : Fault) : execLdVxK x s ≠ .fault f := by
  unfold execLdVxK
  cases s.key <;> exact nofun

/-- Settles O54: CALL and RET fault by the stack, the skips and the bounded adds by leaving the address range,
and no other instruction faults. -/
theorem executeFaultsByInstruction : Obligations.ExecuteFaultsByInstruction := by
  intro i s f h
  cases i with
  | call nnn => exact .inl ⟨⟨nnn, rfl⟩, State.push_error (error_of_orRaise_next h)⟩
  | ret => exact .inr (.inl ⟨rfl, State.pop_error (error_of_orRaise_next h)⟩)
  | seImm | sneImm | seReg | sneReg | skp | sknp =>
    exact .inr (.inr ⟨skipIf_fault_isRangeError h, by simp⟩)
  | jpV0 | addI | ldB | stRegs | ldRegs =>
    exact .inr (.inr ⟨addrAdd_error_isRangeError (by omega) (error_of_orRaise_next h), by simp⟩)
  | drw => exact .inr (.inr ⟨drawRows_error_isRangeError (error_of_orRaise_next h), by simp⟩)
  | ldF x => exact absurd h (execLdF_ne_fault x s f)
  | ldVxK x => exact absurd h (execLdVxK_ne_fault x s f)
  | cls | sys | jp | ldImm | addImm | ldReg | orReg | andReg | xorReg | addReg | subReg | shr | subnReg | shl
  | ldI | rnd | ldVxDt | ldDtVx | ldStVx => cases h

/-- No execute phase raises DecodeError (rule R251). -/
theorem exec_ne_decodeError (i : Instr) (s : State) (op : Opcode) (a : Addr) :
    exec i s ≠ .fault (.decodeError op a) := by
  intro h
  obtain ⟨-, -, hf⟩ | ⟨-, -, hf⟩ | ⟨⟨_, hf, -⟩, -⟩ := executeFaultsByInstruction i s _ h
  all_goals cases hf

/-- StackOverflow is CALL's (rule R252). -/
theorem exec_eq_stackOverflow {i : Instr} {s : State} (h : exec i s = .fault .stackOverflow) :
    (∃ nnn, i = .call nnn) ∧ s.sp.val = 16 := by
  obtain ⟨hi, hsp, -⟩ | ⟨-, -, hf⟩ | ⟨⟨_, hf, -⟩, -⟩ := executeFaultsByInstruction i s _ h
  · exact ⟨hi, hsp⟩
  · cases hf
  · cases hf

/-- StackUnderflow is RET's (rule R253). -/
theorem exec_eq_stackUnderflow {i : Instr} {s : State} (h : exec i s = .fault .stackUnderflow) :
    i = .ret ∧ s.sp.val = 0 := by
  obtain ⟨-, -, hf⟩ | ⟨hi, hsp, -⟩ | ⟨⟨_, hf, -⟩, -⟩ := executeFaultsByInstruction i s _ h
  · cases hf
  · exact ⟨hi, hsp⟩
  · cases hf

/-! ## The faults of a step -/

/-- A step that faults ran out of memory in the fetch or the advance, fetched an opcode that decodes to
nothing, or faulted in its execute phase (rule R107). -/
theorem step_eq_fault {s : State} {f : Fault} (h : step s = .fault f) :
    f = .addressRange 0x1000 ∨
    ∃ op, s.fetch = .ok op ∧
      (((∀ i, decode op ≠ .ok i) ∧ f = .decodeError op s.pc) ∨
       ∃ i, decode op = .ok i ∧ s.pc.toNat ≤ 0xFFD ∧ exec i (s.setPc (s.pc + 2)) = .fault f) := by
  obtain ⟨-, e⟩ | ⟨op, hf, ⟨hd, e⟩ | ⟨i, hd, ⟨-, e⟩ | ⟨hle, e⟩⟩⟩ := step_cases s
  · cases e.symm.trans h; exact .inl rfl
  · cases e.symm.trans h; exact .inr ⟨op, hf, .inl ⟨hd, rfl⟩⟩
  · cases e.symm.trans h; exact .inl rfl
  · exact .inr ⟨op, hf, .inr ⟨i, hd, hle, e.symm.trans h⟩⟩

theorem step_eq_decodeError {s : State} {op : Opcode} {a : Addr} (h : step s = .fault (.decodeError op a)) :
    a = s.pc ∧ s.fetch = .ok op ∧ ∀ i, decode op ≠ .ok i := by
  obtain hf | ⟨_, hfetch, ⟨hd, hf⟩ | ⟨i, -, -, he⟩⟩ := step_eq_fault h
  · cases hf
  · cases hf; exact ⟨rfl, hfetch, hd⟩
  · exact absurd he (exec_ne_decodeError i _ op a)

/-- The families outside table T-ILLEGAL decode all their opcodes. -/
theorem family_not_mem_of_illegal {op : Opcode} (h : decode op = .error (.illegalOpcode op)) :
    op.extractLsb' 12 4 ∉
      ([0x0, 0x1, 0x2, 0x3, 0x4, 0x6, 0x7, 0xA, 0xB, 0xC, 0xD] : List (BitVec 4)) := by
  obtain ⟨hf, -⟩ | ⟨hf, -⟩ | ⟨hf, -⟩ | ⟨hf, -⟩ | ⟨hf, -⟩ := (illegalOpcodesExactly op).1.mp h
  all_goals rw [hf]; decide

/-- Settles O55: only the decode phase raises a DecodeError, and the families listed are none of table
T-ILLEGAL. -/
theorem decodeErrorExactly : Obligations.DecodeErrorExactly := by
  refine ⟨fun s op a => ⟨step_eq_decodeError, ?_⟩, fun op hfam => ?_⟩
  · rintro ⟨rfl, hf, hd⟩
    exact step_of_illegal hf hd
  · cases hd : decode op with
    | ok i => exact ⟨i, rfl⟩
    | error e =>
      rw [decode_error hd] at hd
      exact absurd hfam (family_not_mem_of_illegal hd)

/-- A step that raises a fault which is neither a DecodeError nor an AddressRangeError raises it in its execute
phase (rule R107). -/
theorem exec_fault_of_step {s : State} {f : Fault} (h : step s = .fault f)
    (hdecode : ∀ op a, f ≠ .decodeError op a) (hrange : ∀ v, f ≠ .addressRange v) :
    ∃ op i, s.fetch = .ok op ∧ decode op = .ok i ∧ s.pc.toNat ≤ 0xFFD ∧
      exec i (s.setPc (s.pc + 2)) = .fault f := by
  obtain hf | ⟨op, hfetch, ⟨-, hf⟩ | ⟨i, hd, hle, he⟩⟩ := step_eq_fault h
  · exact absurd hf (hrange _)
  · exact absurd hf (hdecode _ _)
  · exact ⟨op, i, hfetch, hd, hle, he⟩

/-- Settles O56: a stack fault comes from the execute phase, where CALL and RET alone raise it; the advance
before it keeps SP. -/
theorem stackFaultsExactly : Obligations.StackFaultsExactly := by
  refine fun s => ⟨⟨fun h => ?_, ?_⟩, ⟨fun h => ?_, ?_⟩⟩
  · obtain ⟨op, i, hf, hd, hle, he⟩ := exec_fault_of_step h nofun nofun
    obtain ⟨⟨nnn, rfl⟩, hsp⟩ := exec_eq_stackOverflow he
    exact ⟨hle, hsp, op, nnn, hf, hd⟩
  · rintro ⟨hle, hsp, op, nnn, hf, hd⟩
    obtain ⟨-, -, hfull⟩ := callPushesOrOverflows nnn (s.setPc (s.pc + 2))
    exact (step_of_decode hf hd hle).trans (hfull hsp)
  · obtain ⟨op, i, hf, hd, hle, he⟩ := exec_fault_of_step h nofun nofun
    obtain ⟨rfl, hsp⟩ := exec_eq_stackUnderflow he
    obtain ⟨rfl, -⟩ := encode_of_decode hd
    exact ⟨hle, hsp, hf⟩
  · rintro ⟨hle, hsp, hf⟩
    obtain ⟨hd, hret⟩ := returnPopsOrUnderflows
    obtain ⟨-, hempty⟩ := hret (s.setPc (s.pc + 2))
    exact (step_of_decode hf hd hle).trans (hempty hsp)

end Sys2Proof.Machine

/-! The statement about finished programs (spec/70_reset_and_hazards.md rule R289). -/

namespace Sys2Proof.Machine

/-- A run of one more operation at its start, where that operation has a next state. -/
theorem runOps_cons_of_next {s t : State} {op : HostOp} (h : applyOp s op = .next t) (ops : List HostOp) :
    runOps s (op :: ops) = runOps t ops := by
  rw [runOps, h]

/-- Over a finished program no operation writes more than the timers, the latch and the dirty set: its own
step changes nothing, and the other operations write no more than these (table T-WRITERS). -/
theorem applyOp_frameBut_of_finished {s t : State} {op : HostOp} (hfin : s.Finished)
    (h : applyOp s op = .next t) : FrameBut [.delay, .sound, .key, .dirty] s t := by
  cases op with
  | step =>
    cases (step_of_finished hfin).symm.trans h
    exact FrameBut.refl _ s
  | tick | setKey | clearKey | render => exact (applyOp_frameBut h).mono (by simp [hostItems])

/-- Settles O58, by induction on the operations: each leaves the program finished within the frame. -/
theorem finishedStaysFinished : Obligations.FinishedStaysFinished := by
  intro s ops hfin
  induction ops generalizing s with
  | nil => exact ⟨s, rfl, hfin, FrameBut.refl _ s⟩
  | cons op ops ih =>
    obtain ⟨u, hu, hufin⟩ := applyOp_of_finished hfin op
    obtain ⟨t, ht, htfin, hframe⟩ := ih u hufin
    refine ⟨t, (runOps_cons_of_next hu ops).trans ht, htfin, ?_⟩
    exact ((applyOp_frameBut_of_finished hfin hu).trans hframe).mono (by simp)

end Sys2Proof.Machine
